-- ==== Sys2Proof/Word.lean ====
section
/-! DEFINITION. The word types of the block (00_scope.md R5, R7). Bit 0 of every word is its least
significant bit; bit `i` of a mask word is trit position `i` (20_memory.md R32). -/

namespace Sys2Proof

/-- A mask word or a data operand: `W = BW = 64` bits (00_scope.md R5). -/
abbrev Word := BitVec 64

/-- The command word `cw`: `CWW = 16` bits (00_scope.md R5, 30_encoding.md R41). -/
abbrev CommandWord := BitVec 16

/-- The result word of TOINT: `IW = 128` bits, two's complement (00_scope.md R5, 20_memory.md R32 b). -/
abbrev Int128 := BitVec 128

/-- One character code of the text output: `CHW = 8` bits (00_scope.md R5). -/
abbrev CharCode := BitVec 8

end Sys2Proof
end

