-- ==== Sys2Proof/Config.lean ====
section
/-! DEFINITION. What is fixed before any run: the implementation parameters of 00_scope.md R5 and the one
OPEN parameter, `COLLIDE_COEFF` (43_to_signed.md R92). Nothing here is state. -/

namespace Sys2Proof

/-- The admissible values of `COLLIDE_COEFF`, exactly two (43_to_signed.md R92): what a position with both
bits set contributes to the TOINT result, as a multiple of `3^i`. -/
inductive CollideCoeff where
  /-- "the two tests are independent": `+3^i - 3^i = 0`. -/
  | zero
  /-- "the positive test wins and the negative test is not made": `+3^i`. -/
  | plusOne
deriving DecidableEq, Repr, Inhabited

/-- The multiple itself. -/
def CollideCoeff.toInt : CollideCoeff → Int
  | .zero => 0
  | .plusOne => 1

namespace Config

/-- The identity string of the block (00_scope.md R1). -/
def identity : String := "balanced_ternary_normalizer/duck-v7/W64"

/-- `W`: the trit capacity; positions run from 0 to `W - 1` (00_scope.md R5, R7; 90_conflicts.md C1). -/
def tritCapacity : Nat := 64

/-- `TEXT_MAX`: the largest `text_len` the renderer can produce (00_scope.md R5). -/
def textMax : Nat := 127

/-- The largest value of the 7-bit field `width` of the command word (`WIDTHW = 7`, 00_scope.md R5). -/
def widthMax : Nat := 127

/-- `RESET_P` (00_scope.md R5, 10_state.md R22). -/
def resetP : Word := 0

/-- `RESET_N` (00_scope.md R5, 10_state.md R22). -/
def resetN : Word := 0

/-- `MAXV = (3^64 - 1)/2`: the largest magnitude of a 64-trit value (00_scope.md R5, 10_state.md R13). -/
def maxValue : Int := (3 ^ 64 - 1) / 2

/-- DESIGN CHOICE (log entry 1). `COLLIDE_COEFF` of this block: OPEN in the spec (43_to_signed.md R92), so a
free value of the two-valued type, with no body: no proof can see which it is. -/
opaque collideCoeff : CollideCoeff

end Config

end Sys2Proof
end

