-- ==== Sys2Proof/Syntax.lean ====
section
/-! DEFINITION. The eight commands of the block (30_encoding.md R44), one constructor per row of
spec/opcode_table.json. The data operands `din_p`, `din_n` are ports and not part of a command's encoding
(30_encoding.md R40, R43), so no constructor carries them: a meaning reads them from State. -/

namespace Sys2Proof

/-- A decoded command. -/
inductive Instr where
  /-- `NOP`: does nothing (40_construct.md R60). -/
  | nop
  /-- `LOAD`: direct construction from `din_p`, `din_n` (40_construct.md R62). -/
  | load
  /-- `NORM`: clears the colliding positions (41_normalize.md R72). -/
  | norm
  /-- `NEG`: the masks exchanged, as a result (42_negate.md R80). -/
  | neg
  /-- `TOINT`: the value as a 128-bit signed integer (43_to_signed.md R90). -/
  | toint
  /-- `REND`: the text form; `alt` asks for the radix mark `0t`, `width` is the least total number of
  characters (45_render.md R110, 30_encoding.md R42). -/
  | rend (alt : Bool) (width : Nat)
  /-- `FROMU`: construction from `din_p` read as unsigned (44_from_binary.md R101). -/
  | fromu
  /-- `FROMS`: construction from `din_p` read as two's complement (44_from_binary.md R103). -/
  | froms
deriving DecidableEq, Repr

/-- The value of the field `op` that selects the command (30_encoding.md R44). -/
def Instr.opcode : Instr → Nat
  | .nop => 0
  | .load => 1
  | .norm => 2
  | .neg => 3
  | .toint => 4
  | .rend _ _ => 5
  | .fromu => 6
  | .froms => 7

/-- The value of the field `alt`: REND's own, zero for every other command (30_encoding.md R43). -/
def Instr.altBit : Instr → Nat
  | .rend alt _ => alt.toNat
  | .nop | .load | .norm | .neg | .toint | .fromu | .froms => 0

/-- The value of the field `width`: REND's own, zero for every other command (30_encoding.md R43). -/
def Instr.widthField : Instr → Nat
  | .rend _ width => width
  | .nop | .load | .norm | .neg | .toint | .fromu | .froms => 0

end Sys2Proof
end

