-- ==== Sys2Proof/WellFormed.lean ====
section
/-! DEFINITION. Which commands can be written in a command word: the requested width of REND is 0 to 127
(30_encoding.md R42, R47). No other command has an operand in its word. -/

namespace Sys2Proof

/-- The command fits the 16-bit format `CMD16`. -/
def Instr.wf : Instr → Bool
  | .rend _ width => decide (width ≤ Config.widthMax)
  | .nop | .load | .norm | .neg | .toint | .fromu | .froms => true

end Sys2Proof
end

