-- ==== Sys2Proof/Decode.lean ====
section
/-! DEFINITION. The decoder, total on all 65536 command words (30_encoding.md R45, R46), and after it the
encoder, written from the same field table (R41, R42, R44). -/

namespace Sys2Proof

/-- `op = cw[2:0]` (30_encoding.md R42). -/
def opField (cw : CommandWord) : Nat := (cw.extractLsb' 0 3).toNat

/-- `alt = cw[3]` (30_encoding.md R42). -/
def altField (cw : CommandWord) : Nat := (cw.extractLsb' 3 1).toNat

/-- `width = uint_7(cw[10:4])` (30_encoding.md R42). -/
def widthField (cw : CommandWord) : Nat := (cw.extractLsb' 4 7).toNat

/-- `rsv = cw[15:11]` (30_encoding.md R42). -/
def rsvField (cw : CommandWord) : Nat := (cw.extractLsb' 11 5).toNat

/-- Why a word is no command. DESIGN CHOICE (log entry 8): the spec has one `Illegal`; the two names are
those of the two tests of 30_encoding.md R46, and no state of the block depends on which it was. -/
inductive Illegal where
  /-- `rsv != 0`. -/
  | reservedBits
  /-- `op != 5 and (alt != 0 or width != 0)`. -/
  | strayModifier
deriving DecidableEq, Repr

/-- The command that `op`, `alt` and `width` select (30_encoding.md R44). `op` has three bits, so the last
arm is `op = 7`. -/
def commandOf (op : Nat) (alt : Bool) (width : Nat) : Instr :=
  match op with
  | 0 => .nop
  | 1 => .load
  | 2 => .norm
  | 3 => .neg
  | 4 => .toint
  | 5 => .rend alt width
  | 6 => .fromu
  | _ => .froms

/-- `decode(cw)` (30_encoding.md R46): a function of the command word alone. -/
def decode (cw : CommandWord) : Except Illegal Instr :=
  if rsvField cw ≠ 0 then
    .error .reservedBits
  else if opField cw ≠ 5 ∧ (altField cw ≠ 0 ∨ widthField cw ≠ 0) then
    .error .strayModifier
  else
    .ok (commandOf (opField cw) (altField cw == 1) (widthField cw))

/-- The word is one of the eight commands (30_encoding.md R45). -/
def isLegal (cw : CommandWord) : Bool :=
  match decode cw with
  | .ok _ => true
  | .error _ => false

/-- The command word of a well-formed command: `op + 8*alt + 16*width`, reserved bits zero
(30_encoding.md R41, R42, R44). -/
def encode (i : Instr) : CommandWord :=
  BitVec.ofNat 16 (i.opcode + 8 * i.altBit + 16 * i.widthField)

/-- The command word whose `nbits` lowest bits are those of `w` and whose other bits are zero. -/
def tableWord (nbits w : Nat) : CommandWord := BitVec.ofNat 16 (w % 2 ^ nbits)

/-- What the decoder reads from the word `w` of a row of spec/opcode_table.json. -/
def decodeTableWord (nbits w : Nat) : Option Instr :=
  match decode (tableWord nbits w) with
  | .ok i => some i
  | .error _ => none

end Sys2Proof
end

