-- ==== Sys2Proof/Machine/State.lean ====
section
/-! DEFINITION. The state of the block as plain data. The architectural state is `P` and `N` and nothing
else (10_state.md R10, R23). Beside them stand what the block has at its boundary in one step (the output
record, the two data ports) and the model's own two fields (the host's coming events, the mark that an
illegal command was issued). There is no memory, program counter, flag, mode or control register
(10_state.md R16 to R19, 20_memory.md R30, 60_exceptions.md R138). -/

namespace Sys2Proof.Machine

/-- The faults of the block: none. "None of the eight commands raises an exception" (60_exceptions.md R130),
and the illegal-command response is a completed step, not a stop (60_exceptions.md R132). -/
inductive Fault where
deriving DecidableEq, Repr

/-- Why a step could have no meaning in this model. -/
inductive Refusal where
  /-- An instruction without a meaning, by its mnemonic. Raised by no arm of `exec`: all eight commands have
  their meaning. Safe: a refused step proves nothing about the block. -/
  | notModelled (mnemonic : String)
deriving DecidableEq, Repr

/-- What the host presents with `cmd_valid = 1` (30_encoding.md R40). -/
structure Command where
  cw : CommandWord
  dinP : Word
  dinN : Word
deriving DecidableEq, Repr

/-- The interactions of the host that reach the block (70_reset_and_hazards.md R159). Reading an output has no
effect (20_memory.md R35) and carrying a result forward is a later LOAD, so neither is an event of its own. -/
inductive HostEvent where
  /-- A command, `cmd_valid = 1`. -/
  | command (c : Command)
  /-- An idle interval, `cmd_valid = 0` (30_encoding.md R40). -/
  | idle
  /-- The reset signal, between steps (70_reset_and_hazards.md R150). -/
  | reset
deriving DecidableEq, Repr

/-- The output record of one step (10_state.md R20). A field that the command's rule does not write has no
value: `none`, never zero and never an earlier step's value (93_implementation_defined.md U9). -/
structure OutRecord where
  /-- `out.ill`: the command word was illegal. -/
  ill : Bool
  /-- `out.res_p`, 64 bits. -/
  resP : Option Word := none
  /-- `out.res_n`, 64 bits. -/
  resN : Option Word := none
  /-- `out.res_int`, 128 bits, two's complement. -/
  resInt : Option Int128 := none
  /-- `out.text_len`, 7 bits. -/
  textLen : Option (BitVec 7) := none
  /-- `out.text`, character codes, leftmost first (20_memory.md R32 c). -/
  text : Option (List CharCode) := none
deriving DecidableEq, Repr

/-- The machine. -/
structure State where
  /-- `P`, the positive mask (10_state.md R10). -/
  P : Word
  /-- `N`, the negative mask (10_state.md R10). -/
  N : Word
  /-- The output record that the latest event produced, if it produced one (10_state.md R20). It is no state
  of the block: no command reads it. DESIGN CHOICE (log entry 3): it stands here until the next event. -/
  out : Option OutRecord
  /-- The input port `din_p` as the command being executed sees it (30_encoding.md R40; log entry 4). -/
  dinP : Word
  /-- The input port `din_n` as the command being executed sees it (30_encoding.md R40; log entry 4). -/
  dinN : Word
  /-- What the host will do next, first first. The model's own: "a model takes the sequence of presented
  commands as its input" (30_encoding.md R40; log entry 2). -/
  pending : List HostEvent
  /-- An illegal command was issued in this run. The model's own bookkeeping (60_exceptions.md R132; log
  entry 5): no command reads it and nothing clears it. -/
  illegalSeen : Bool
deriving DecidableEq, Repr

/-- The machine right after reset: `P = N = 0` and no output record (10_state.md R22, 70_reset_and_hazards.md
R150, R152). DESIGN CHOICE (log entries 2, 4, 5): the ports are 0, nothing is pending, no illegal command has
been seen; the spec gives these no reset value. -/
def State.reset : State where
  P := Config.resetP
  N := Config.resetN
  out := none
  dinP := 0
  dinN := 0
  pending := []
  illegalSeen := false

end Sys2Proof.Machine
end

