-- ==== Sys2Proof/Machine/Flags.lean ====
section
/-! DEFINITION. The part `ternary_collision_detector` and the reading of a mask pair: the collision word, the
four continuous outputs (10_state.md R21, 41_normalize.md R70), the trit decoding (R11) and the value (R13).
There is no stored flag (10_state.md R17). Also the bit counts that the rules name (00_scope.md R7). -/

namespace Sys2Proof.Machine

/-- `colliding(P, N) = P & N` (41_normalize.md R70). -/
def colliding (p n : Word) : Word := p &&& n

/-- The invariant of 10_state.md R12: `P & N = 0`. -/
def isNormalized (p n : Word) : Bool := colliding p n == 0

/-- Continuous output `t_p` (10_state.md R21). -/
def State.tP (s : State) : Word := s.P

/-- Continuous output `t_n` (10_state.md R21). -/
def State.tN (s : State) : Word := s.N

/-- Continuous output `coll` (10_state.md R21). -/
def State.coll (s : State) : Word := colliding s.P s.N

/-- Continuous output `coll_any` (10_state.md R21). -/
def State.collAny (s : State) : Bool := s.coll != 0

/-- `f 0 + f 1 + ... + f (k - 1)`, on mathematical integers (00_scope.md R7). -/
def sumTo (f : Nat → Int) : Nat → Int
  | 0 => 0
  | k + 1 => sumTo f k + f k

/-- `trit(T, i)`: partial (10_state.md R11). A collision has no trit value, and positions run from 0 to 63. -/
def trit (p n : Word) (i : Nat) : Option Int :=
  if i < Config.tritCapacity then
    match p.getLsbD i, n.getLsbD i with
    | true, false => some 1
    | false, true => some (-1)
    | false, false => some 0
    | true, true => none
  else none

/-- `val(T)`: the sum over positions of trit times `3^i`; not defined for a pair with a collision
(10_state.md R13). -/
def val (p n : Word) : Option Int :=
  if isNormalized p n then
    some (sumTo (fun i => (trit p n i).getD 0 * 3 ^ i) Config.tritCapacity)
  else none

/-- The sum of `3^i` over the set bits `i` of one word (10_state.md R13). -/
def maskValue (v : Word) : Int :=
  sumTo (fun i => (if v.getLsbD i then 1 else 0) * 3 ^ i) Config.tritCapacity

/-- The clear bits of `v` from bit `k - 1` down to the highest set bit below `k`. -/
def leadingZerosBelow (v : Word) : Nat → Nat
  | 0 => 0
  | k + 1 => if v.getLsbD k then 0 else leadingZerosBelow v k + 1

/-- `clz64(v)`: the number of leading zero bits, 64 for `v = 0` (00_scope.md R7). -/
def clz64 (v : Word) : Nat := leadingZerosBelow v 64

/-- The set bits of `v` below bit `k`. -/
def setBitsBelow (v : Word) : Nat → Nat
  | 0 => 0
  | k + 1 => setBitsBelow v k + (if v.getLsbD k then 1 else 0)

/-- `popcount(v)`: the number of set bits (00_scope.md R7). -/
def popcount (v : Word) : Nat := setBitsBelow v 64

end Sys2Proof.Machine
end

