-- ==== Sys2Proof/Machine/Operands.lean ====
section
/-! DEFINITION. The operand forms of the commands (30_encoding.md R43): each command takes its operands from
fixed places. The fields `alt` and `width` of REND come with the decoded command. -/

namespace Sys2Proof.Machine

/-- The operand of LOAD: the new positive and the new negative word (30_encoding.md R43). -/
def operandPair (s : State) : Word × Word := (s.dinP, s.dinN)

/-- The operand of FROMU: `n = uint_64(din_p)` (30_encoding.md R43, 44_from_binary.md R101). -/
def operandUnsigned (s : State) : Nat := s.dinP.toNat

/-- The operand of FROMS: `n = sint_64(din_p)` (30_encoding.md R43, 44_from_binary.md R103). -/
def operandSigned (s : State) : Int := s.dinP.toInt

end Sys2Proof.Machine
end

