-- ==== Sys2Proof/Machine/Ops.lean ====
section
/-! DEFINITION. The operations that the meanings and the step share: writing the register pair, answering with
an output record, the illegal-command response, reset, idling, and taking a command from the host. There is no
return from an exception: "There is no trap-return command, nothing to restore" (60_exceptions.md R137). -/

namespace Sys2Proof.Machine

/-- Write both registers in one step (00_scope.md R8, 20_memory.md R35). -/
def writeT (pair : Word × Word) (s : State) : State := { s with P := pair.1, N := pair.2 }

/-- The output record of a legal command that writes no other field: `out.ill = 0` (10_state.md R20). -/
def okRecord : OutRecord := { ill := false }

/-- Complete the step with its output record (10_state.md R20, 20_memory.md R34). -/
def respond (r : OutRecord) (s : State) : Host.Outcome State Fault Refusal :=
  .next { s with out := some r }

/-- `raise IllegalCommand` (60_exceptions.md R132): `out.ill = 1`, no other output field, `P` and `N` not
written. The step counts as a step, so a next state; the mark `illegalSeen` is the model's (log entry 5). -/
def raiseIllegalCommand (s : State) : Host.Outcome State Fault Refusal :=
  respond { ill := true } { s with illegalSeen := true }

/-- The reset event (70_reset_and_hazards.md R150): `P <- 0`, `N <- 0`, no output record. -/
def applyReset (s : State) : State :=
  { writeT (Config.resetP, Config.resetN) s with out := none }

/-- An interval with `cmd_valid = 0` (30_encoding.md R40): T keeps its value and no record is produced. -/
def idleInterval (s : State) : State := { s with out := none }

/-- The host's next event is taken off the list of what it will do (20_memory.md R34: issue order). -/
def dequeue (rest : List HostEvent) (s : State) : State := { s with pending := rest }

/-- The data operands that come with a command stand on the ports (30_encoding.md R40). -/
def latchOperands (c : Command) (s : State) : State := { s with dinP := c.dinP, dinN := c.dinN }

/-- The host presents `e` before anything else it has pending (70_reset_and_hazards.md R159). -/
def present (e : HostEvent) (s : State) : State := { s with pending := e :: s.pending }

end Sys2Proof.Machine
end

