-- ==== Sys2Proof/Machine/Construct.lean ====
section
/-! DEFINITION. NOP and direct construction (40_construct.md). -/

namespace Sys2Proof.Machine

/-- NOP (40_construct.md R60): only `out.ill <- 0`. -/
def execNop (s : State) : Host.Outcome State Fault Refusal := respond okRecord s

/-- LOAD (40_construct.md R62): `P <- din_p`, `N <- din_n`, without normalizing (R63). -/
def execLoad (s : State) : Host.Outcome State Fault Refusal :=
  respond okRecord (writeT (operandPair s) s)

end Sys2Proof.Machine
end

