-- ==== Sys2Proof/Machine/Negate.lean ====
section
/-! DEFINITION. NEG (42_negate.md): the masks exchanged, delivered as a result; T is not written (R82). -/

namespace Sys2Proof.Machine

/-- `neg(p, n) = (n, p)` (42_negate.md R81). -/
def negatePair (p n : Word) : Word × Word := (n, p)

/-- NEG (42_negate.md R80). -/
def execNeg (s : State) : Host.Outcome State Fault Refusal :=
  respond { okRecord with
    resP := some (negatePair s.P s.N).1
    resN := some (negatePair s.P s.N).2 } s

end Sys2Proof.Machine
end

