-- ==== Sys2Proof/Machine/FromBinary.lean ====
section
/-! DEFINITION. Construction from a 64-bit binary integer: FROMU and FROMS (44_from_binary.md), and beside them
the single loop with floored division that R103 calls equivalent, which is not what the step runs. -/

namespace Sys2Proof.Machine

/-- `v` with bit `i` set. -/
def setBit (v : Word) (i : Nat) : Word := v ||| (1#64 <<< i)

/-- The loop of `enc_u` (44_from_binary.md R102) from position `i`, for at most `fuel` passes. -/
def encodeLoop : Nat → Nat → Nat → Word × Word → Word × Word
  | 0, _, _, pq => pq
  | fuel + 1, i, m, pq =>
    if m = 0 then pq
    else if m % 3 = 1 then encodeLoop fuel (i + 1) (m / 3) (setBit pq.1 i, pq.2)
    else if m % 3 = 2 then encodeLoop fuel (i + 1) (m / 3 + 1) (pq.1, setBit pq.2 i)
    else encodeLoop fuel (i + 1) (m / 3) pq

/-- `enc_u(m)` (44_from_binary.md R102). DEDUCED (log entry 9): every `m` below `2^64` ends the loop within 42
of the 64 passes allowed here (R104). -/
def encodeUnsigned (m : Nat) : Word × Word := encodeLoop Config.tritCapacity 0 m (0, 0)

/-- The pair that FROMS writes for `n` (44_from_binary.md R103): a negative number is the exchange of the
encoding of its magnitude. -/
def encodeSigned (n : Int) : Word × Word :=
  if 0 ≤ n then encodeUnsigned n.toNat
  else negatePair (encodeUnsigned (-n).toNat).1 (encodeUnsigned (-n).toNat).2

/-- FROMU (44_from_binary.md R101). -/
def execFromu (s : State) : Host.Outcome State Fault Refusal :=
  respond okRecord (writeT (encodeUnsigned (operandUnsigned s)) s)

/-- FROMS (44_from_binary.md R103). -/
def execFroms (s : State) : Host.Outcome State Fault Refusal :=
  respond okRecord (writeT (encodeSigned (operandSigned s)) s)

/-- What `m` becomes in one pass of `enc_u` (44_from_binary.md R102). -/
def nextQuotient (m : Nat) : Nat := if m % 3 = 2 then m / 3 + 1 else m / 3

/-- The number of passes the loop of `enc_u` runs on `m`, counted up to `fuel` (44_from_binary.md R104). -/
def encodePassesFrom : Nat → Nat → Nat
  | 0, _ => 0
  | fuel + 1, m => if m = 0 then 0 else encodePassesFrom fuel (nextQuotient m) + 1

/-- The number of passes of `enc_u` on `m` (44_from_binary.md R104, 70_reset_and_hazards.md R162). -/
def encodePasses (m : Nat) : Nat := encodePassesFrom Config.tritCapacity m

/-- The loop of `enc_u` run on an integer with floored division (44_from_binary.md R103). -/
def flooredLoop : Nat → Nat → Int → Word × Word → Word × Word
  | 0, _, _, pq => pq
  | fuel + 1, i, z, pq =>
    if z = 0 then pq
    else if z % 3 = 1 then flooredLoop fuel (i + 1) (z / 3) (setBit pq.1 i, pq.2)
    else if z % 3 = 2 then flooredLoop fuel (i + 1) (z / 3 + 1) (pq.1, setBit pq.2 i)
    else flooredLoop fuel (i + 1) (z / 3) pq

/-- The floored-division form on `z` (44_from_binary.md R103). -/
def encodeFloored (z : Int) : Word × Word := flooredLoop Config.tritCapacity 0 z (0, 0)

end Sys2Proof.Machine
end

