-- ==== Sys2Proof/Machine/Normalize.lean ====
section
/-! DEFINITION. The part `balanced_ternary_normalizer`: NORM (41_normalize.md). -/

namespace Sys2Proof.Machine

/-- Both words with the colliding bits cleared (41_normalize.md R72). Collision means zero, never carry
(R74): a bitwise operation and nothing else. -/
def normalizePair (p n : Word) : Word × Word :=
  let c := colliding p n
  (p &&& ~~~c, n &&& ~~~c)

/-- NORM (41_normalize.md R72). -/
def execNorm (s : State) : Host.Outcome State Fault Refusal :=
  respond okRecord (writeT (normalizePair s.P s.N) s)

end Sys2Proof.Machine
end

