-- ==== Sys2Proof/Machine/Render.lean ====
section
/-! DEFINITION. The part `ternary_text_renderer`: REND (45_render.md). -/

namespace Sys2Proof.Machine

/-- The four characters of the text output (45_render.md R115). -/
inductive TextChar where
  | plus
  | minus
  | zero
  | t
deriving DecidableEq, Repr

/-- The 8-bit code of a character (45_render.md R115). -/
def TextChar.code : TextChar → CharCode
  | .plus => 0x2B
  | .minus => 0x2D
  | .zero => 0x30
  | .t => 0x74

/-- `trit_char(p, n)` (45_render.md R111): a collision is `'0'` like an empty position. -/
def tritChar : Bool → Bool → TextChar
  | true, false => .plus
  | false, true => .minus
  | false, false => .zero
  | true, true => .zero

/-- The characters `c[0] .. c[63]` of 45_render.md R110, position 63 first (R112). -/
def positionChars (p n : Word) : List TextChar :=
  (List.range 64).map fun k => tritChar (p.getLsbD (63 - k)) (n.getLsbD (63 - k))

/-- The digits: every leading `'0'` dropped (45_render.md R112). -/
def digits (p n : Word) : List TextChar := (positionChars p n).dropWhile (· == .zero)

/-- The radix mark `0t` when it is requested (45_render.md R113). -/
def radixMark (alt : Bool) : List TextChar := if alt then [.zero, .t] else []

/-- How many `'0'` characters bring a text of `len` characters to `width` (45_render.md R114). -/
def padCount (width len : Nat) : Nat := if width > len then width - len else 0

/-- The text: mark, padding, digits (45_render.md R110). -/
def renderText (alt : Bool) (width : Nat) (p n : Word) : List TextChar :=
  let len := (radixMark alt).length + (digits p n).length
  radixMark alt ++ List.replicate (padCount width len) .zero ++ digits p n

/-- REND (45_render.md R110); T is not written. A well-formed command has `width ≤ 127`, so that `text_len`
fits its 7 bits (R116; log entry 7). -/
def execRend (alt : Bool) (width : Nat) (s : State) : Host.Outcome State Fault Refusal :=
  respond { okRecord with
    textLen := some (BitVec.ofNat 7 (renderText alt width s.P s.N).length)
    text := some ((renderText alt width s.P s.N).map TextChar.code) } s

/-- The value of one digit of a numeral (45_render.md R119 j); `t` is no digit. -/
def TextChar.digit : TextChar → Int
  | .plus => 1
  | .minus => -1
  | .zero => 0
  | .t => 0

/-- A string of digits read as a balanced-ternary numeral, leftmost most significant (45_render.md R119 j). -/
def numeralValue (cs : List TextChar) : Int := cs.foldl (fun acc c => 3 * acc + c.digit) 0

end Sys2Proof.Machine
end

