-- ==== Sys2Proof/Machine/ToSigned.lean ====
section
/-! DEFINITION. The part `ternary_to_signed_converter`: TOINT (43_to_signed.md R90), and beside it the
document's reference loop (R91), which is not what the step runs. -/

namespace Sys2Proof.Machine

/-- The multiple of `3^i` that a position with bits `(p, n)` contributes (43_to_signed.md R90, R92). -/
def contribution (c : CollideCoeff) : Bool → Bool → Int
  | true, false => 1
  | false, true => -1
  | false, false => 0
  | true, true => c.toInt

/-- `s` of 43_to_signed.md R90: the sum over positions 0 to 63, `COLLIDE_COEFF` an argument. -/
def signedSum (c : CollideCoeff) (p n : Word) : Int :=
  sumTo (fun i => contribution c (p.getLsbD i) (n.getLsbD i) * 3 ^ i) Config.tritCapacity

/-- TOINT (43_to_signed.md R90): the sum as a 128-bit two's complement word; T is not written. -/
def execToint (s : State) : Host.Outcome State Fault Refusal :=
  respond { okRecord with
    resInt := some (BitVec.ofInt 128 (signedSum Config.collideCoeff s.P s.N)) } s

/-- The temporaries of the reference loop (43_to_signed.md R91) and how many passes it has run. -/
structure LoopState where
  p : Word
  n : Word
  acc : Int
  sum : Int
  passes : Nat
deriving DecidableEq, Repr

/-- One pass of the reference loop (43_to_signed.md R91). -/
def loopPass (c : CollideCoeff) (l : LoopState) : LoopState where
  p := l.p >>> 1
  n := l.n >>> 1
  acc := l.acc * 3
  sum := l.sum + contribution c (l.p.getLsbD 0) (l.n.getLsbD 0) * l.acc
  passes := l.passes + 1

/-- The loop "while either mask is still nonzero", for at most `fuel` passes. -/
def runLoop (c : CollideCoeff) : Nat → LoopState → LoopState
  | 0, l => l
  | fuel + 1, l => if l.p ≠ 0 ∨ l.n ≠ 0 then runLoop c fuel (loopPass c l) else l

/-- The reference loop of 43_to_signed.md R91 on a mask pair. DEDUCED (log entry 9): 64 passes empty any two
64-bit words, so the bound never cuts it short. -/
def referenceLoop (c : CollideCoeff) (p n : Word) : LoopState :=
  runLoop c 64 { p := p, n := n, acc := 1, sum := 0, passes := 0 }

end Sys2Proof.Machine
end

