-- ==== Sys2Proof/Machine/Dispatch.lean ====
section
/-! DEFINITION. One arm per command (30_encoding.md R44). -/

namespace Sys2Proof.Machine

def exec (i : Instr) (s : State) : Host.Outcome State Fault Refusal :=
  match i with
  | .nop => Sys2Proof.Machine.execNop s
  | .load => Sys2Proof.Machine.execLoad s
  | .norm => Sys2Proof.Machine.execNorm s
  | .neg => Sys2Proof.Machine.execNeg s
  | .toint => Sys2Proof.Machine.execToint s
  | .rend alt width => Sys2Proof.Machine.execRend alt width s
  | .fromu => Sys2Proof.Machine.execFromu s
  | .froms => Sys2Proof.Machine.execFroms s

end Sys2Proof.Machine
end

