-- ==== Sys2Proof/Machine/Serve.lean ====
section
/-! DEFINITION. What the block does with one event of the host: the step of 30_encoding.md R46 for a command,
reset (70_reset_and_hazards.md R150) and the idle interval (30_encoding.md R40). -/

namespace Sys2Proof.Machine

/-- The step of 30_encoding.md R46 on a command whose operands stand on the ports. -/
def runCommand (cw : CommandWord) (s : State) : Host.Outcome State Fault Refusal :=
  match decode cw with
  | .ok i => exec i s
  | .error _ => raiseIllegalCommand s

/-- The answer to one event. -/
def serve (e : HostEvent) (s : State) : Host.Outcome State Fault Refusal :=
  match e with
  | .idle => .next (idleInterval s)
  | .reset => .next (applyReset s)
  | .command c => runCommand c.cw (latchOperands c s)

/-- The event that presents the command word `w` of `nbits` bits with the operands now on the ports. -/
def wordEvent (s : State) (nbits w : Nat) : HostEvent :=
  .command { cw := tableWord nbits w, dinP := s.dinP, dinN := s.dinN }

end Sys2Proof.Machine
end

