-- ==== Sys2Proof/Machine/Step.lean ====
section
/-! DEFINITION. One step: the host's next event is taken and answered (30_encoding.md R40, 20_memory.md R34). A
step always answers a next state: "a command always completes" (60_exceptions.md R134). -/

namespace Sys2Proof.Machine

/-- One event of the host. With nothing pending the host presents nothing, which is an idle interval
(30_encoding.md R40; log entry 2). -/
def step (s : State) : Host.Outcome State Fault Refusal :=
  match s.pending with
  | [] => serve .idle s
  | e :: rest => serve e (dequeue rest s)

/-- `s` with the host presenting the command word `w` next, the data operands being those on the ports (log
entry 6): the block has no stored program (10_state.md R16). -/
def State.withFetchWord (s : State) (nbits w : Nat) : State := present (wordEvent s nbits w) s

end Sys2Proof.Machine
end

