-- ==== Sys2Proof/Machine/Assembler.lean ====
section
/-! DEFINITION. The notation in which the spec lists commands (30_encoding.md R47) and the two
pseudo-instructions CLR and NEGM (R48). None of it is hardware: it says which commands the host presents for a
line of a listing. DESIGN CHOICE (log entry 10): what R47 leaves open of the notation is refused. -/

namespace Sys2Proof.Machine

/-- One line of a listing, its numbers read (30_encoding.md R47, R48). -/
inductive AsmLine where
  | nop
  | load (p n : Nat)
  | norm
  | neg
  | toint
  | rend (alt : Bool) (width : Nat)
  | fromu (u : Nat)
  | froms (s : Int)
  /-- `CLR`: `LOAD 0, 0` (30_encoding.md R48). -/
  | clr
  /-- `NEGM`: `NEG`, then `LOAD out.res_p, out.res_n` (30_encoding.md R48). -/
  | negm
deriving DecidableEq, Repr

/-- What the host does for a line. -/
inductive HostAction where
  /-- Present this command. -/
  | issue (c : Command)
  /-- Present `LOAD` with the `res_p` and `res_n` of the output record just read (70_reset_and_hazards.md
  R159, "carry a result forward"). -/
  | carryForward
deriving DecidableEq, Repr

/-- The command of `i` with the given data operands; an operand that listings leave open is written 0. -/
def commandFor (i : Instr) (p n : Word) : Command := { cw := encode i, dinP := p, dinN := n }

/-- The host's actions for a line; `none` where a number is outside the range R47 gives. DESIGN CHOICE (log
entry 13): so `FROMS 0xFFFFFFFFFFFFFFFF`, which program 2, step 9 of 95_test_vectors.md lists for `FROMS -1`, is
refused, since R47 bounds `s` by `2^63-1`. -/
def expandLine : AsmLine → Option (List HostAction)
  | .nop => some [.issue (commandFor .nop 0 0)]
  | .load p n =>
    if p < 2 ^ 64 ∧ n < 2 ^ 64 then
      some [.issue (commandFor .load (BitVec.ofNat 64 p) (BitVec.ofNat 64 n))]
    else none
  | .norm => some [.issue (commandFor .norm 0 0)]
  | .neg => some [.issue (commandFor .neg 0 0)]
  | .toint => some [.issue (commandFor .toint 0 0)]
  | .rend alt width =>
    if width ≤ Config.widthMax then some [.issue (commandFor (.rend alt width) 0 0)] else none
  | .fromu u =>
    if u < 2 ^ 64 then some [.issue (commandFor .fromu (BitVec.ofNat 64 u) 0)] else none
  | .froms s =>
    if -(2 ^ 63) ≤ s ∧ s < 2 ^ 63 then some [.issue (commandFor .froms (BitVec.ofInt 64 s) 0)] else none
  | .clr => some [.issue (commandFor .load 0 0)]
  | .negm => some [.issue (commandFor .neg 0 0), .carryForward]

/-- The event an action presents when the host has read the outputs of `s`; `none` where the output record
holds no pair to carry. -/
def actionEvent (s : State) : HostAction → Option HostEvent
  | .issue c => some (.command c)
  | .carryForward =>
    match s.out with
    | some r =>
      match r.resP, r.resN with
      | some p, some n => some (.command (commandFor .load p n))
      | _, _ => none
    | none => none

/-- The pieces of a line (30_encoding.md R47). -/
inductive Token where
  | word (cs : List Char)
  | comma
  | hash
deriving DecidableEq, Repr

/-- The word gathered so far, written backwards, as a token if there is one. -/
def flushWord (acc : List Char) : List Token := if acc = [] then [] else [.word acc.reverse]

/-- The tokens of a line: a `;` starts a comment, blanks separate words (30_encoding.md R47). -/
def lexLine : List Char → List Char → List Token
  | [], acc => flushWord acc
  | c :: cs, acc =>
    if c = ';' then flushWord acc
    else if c = ' ' ∨ c = '\t' then flushWord acc ++ lexLine cs []
    else if c = ',' then flushWord acc ++ .comma :: lexLine cs []
    else if c = '#' then flushWord acc ++ .hash :: lexLine cs []
    else lexLine cs (c :: acc)

/-- The value of a digit character, in any base up to 16. -/
def digitOf (c : Char) : Option Nat :=
  let k := c.toNat
  if 48 ≤ k ∧ k ≤ 57 then some (k - 48)
  else if 65 ≤ k ∧ k ≤ 70 then some (k - 55)
  else if 97 ≤ k ∧ k ≤ 102 then some (k - 87)
  else none

/-- Digits in a base, most significant first, after the value read so far. -/
def readDigits (base : Nat) : List Char → Nat → Option Nat
  | [], acc => some acc
  | c :: cs, acc =>
    match digitOf c with
    | some d => if d < base then readDigits base cs (acc * base + d) else none
    | none => none

/-- A number: decimal, `0x` hexadecimal or `0b` binary (30_encoding.md R47). -/
def readNat : List Char → Option Nat
  | [] => none
  | ['0', 'x'] => none
  | ['0', 'b'] => none
  | '0' :: 'x' :: cs => readDigits 16 cs 0
  | '0' :: 'b' :: cs => readDigits 2 cs 0
  | cs => readDigits 10 cs 0

/-- A number with an optional minus sign, the operand of FROMS (30_encoding.md R47). -/
def readInt : List Char → Option Int
  | '-' :: cs => (readNat cs).map fun k => -(k : Int)
  | cs => (readNat cs).map fun k => (k : Int)

/-- A line from its tokens (30_encoding.md R47, R48). Mnemonics are upper case. -/
def readTokens : List Token → Option AsmLine
  | [.word ['N', 'O', 'P']] => some .nop
  | [.word ['L', 'O', 'A', 'D'], .word p, .comma, .word n] =>
    match readNat p, readNat n with
    | some p, some n => some (.load p n)
    | _, _ => none
  | [.word ['N', 'O', 'R', 'M']] => some .norm
  | [.word ['N', 'E', 'G']] => some .neg
  | [.word ['T', 'O', 'I', 'N', 'T']] => some .toint
  | [.word ['R', 'E', 'N', 'D']] => some (.rend false 0)
  | [.word ['R', 'E', 'N', 'D'], .word w] => (readNat w).map (.rend false)
  | [.word ['R', 'E', 'N', 'D'], .hash] => some (.rend true 0)
  | [.word ['R', 'E', 'N', 'D'], .hash, .comma, .word w] => (readNat w).map (.rend true)
  | [.word ['F', 'R', 'O', 'M', 'U'], .word u] => (readNat u).map .fromu
  | [.word ['F', 'R', 'O', 'M', 'S'], .word s] => (readInt s).map .froms
  | [.word ['C', 'L', 'R']] => some .clr
  | [.word ['N', 'E', 'G', 'M']] => some .negm
  | _ => none

/-- The host's actions for a line of text: none at all for a line that holds only a comment. -/
def assembleLine (text : List Char) : Option (List HostAction) :=
  match lexLine text [] with
  | [] => some []
  | tokens => (readTokens tokens).bind expandLine

end Sys2Proof.Machine
end

