-- ==== Sys2Proof/Safety.lean ====
section
/-! DEFINITION. The terms in which claims are stated: what an event can do to T, when a state may be converted,
the shape of an output record, and the invariants that steps keep. -/

namespace Sys2Proof.Machine

/-- The state satisfies 10_state.md R12: no position is set in both words. -/
def State.normalized (s : State) : Bool := isNormalized s.P s.N

/-- The run so far issued no illegal command: the premise that 60_exceptions.md R132 wants explicit. -/
def State.lawful (s : State) : Bool := !s.illegalSeen

/-- The event can write `P` or `N`: reset, or a command word of LOAD, NORM, FROMU or FROMS (10_state.md R14). -/
def HostEvent.writesT : HostEvent → Bool
  | .reset => true
  | .idle => false
  | .command c =>
    match decode c.cw with
    | .ok .load => true
    | .ok .norm => true
    | .ok .fromu => true
    | .ok .froms => true
    | .ok .nop => false
    | .ok .neg => false
    | .ok .toint => false
    | .ok (.rend _ _) => false
    | .error _ => false

/-- The event is a LOAD whose operands share a set bit, the one event that can create a collision
(70_reset_and_hazards.md R161). -/
def HostEvent.loadsCollision : HostEvent → Bool
  | .command c =>
    match decode c.cw with
    | .ok .load => !isNormalized c.dinP c.dinN
    | .ok .nop => false
    | .ok .norm => false
    | .ok .neg => false
    | .ok .toint => false
    | .ok (.rend _ _) => false
    | .ok .fromu => false
    | .ok .froms => false
    | .error _ => false
  | .idle => false
  | .reset => false

/-- Normalized, and the host has no colliding LOAD in store (70_reset_and_hazards.md R161). -/
def State.staysNormalized (s : State) : Bool :=
  s.normalized && s.pending.all fun e => !e.loadsCollision

/-- The codes that may appear in `out.text` (45_render.md R115). -/
def textCodes : List CharCode := [0x2B, 0x2D, 0x30, 0x74]

/-- How many of the three results (negated pair, integer, text) a record carries. -/
def OutRecord.resultCount (r : OutRecord) : Nat :=
  r.resP.isSome.toNat + r.resInt.isSome.toNat + r.text.isSome.toNat

/-- The shape every output record has (10_state.md R20, 43_to_signed.md R93, 45_render.md R115, R116): at most
one command's result, none at all beside `ill = 1`, the paired fields together, a text as long as it says and of
the four codes, an integer within the range of 64 trits. -/
structure OutRecord.Shape (r : OutRecord) : Prop where
  oneResult : r.resultCount ≤ if r.ill then 0 else 1
  pairTogether : r.resP.isSome = r.resN.isSome
  textTogether : r.text.isSome = r.textLen.isSome
  textLength : ∀ cs n, r.text = some cs → r.textLen = some n → cs.length = n.toNat
  codes : ∀ cs, r.text = some cs → ∀ c ∈ cs, c ∈ textCodes
  range : ∀ z, r.resInt = some z → -Config.maxValue ≤ z.toInt ∧ z.toInt ≤ Config.maxValue

/-- The outputs are in order: whatever record stands on the output has its shape, and one that reports an
illegal command is recorded by the model (60_exceptions.md R132). -/
structure State.OutputsInOrder (s : State) : Prop where
  shape : ∀ r, s.out = some r → r.Shape
  recorded : ∀ r, s.out = some r → r.ill = true → s.illegalSeen = true

/-- Two states that the block cannot tell apart: equal architectural state and the same events to come
(10_state.md R23). -/
structure State.SameBlock (s t : State) : Prop where
  P : s.P = t.P
  N : s.N = t.N
  pending : s.pending = t.pending

/-- `c` is how the digit `d` is written, a letter in either case (log entry 10). -/
def IsDigitOf (c : Char) (d : Nat) : Prop := c = Nat.digitChar d ∨ c = (Nat.digitChar d).toUpper

/-- `text` writes the number `k` in one of the three ways of 30_encoding.md R47: decimal, `0x` hexadecimal or
`0b` binary, with at least one digit, most significant first. -/
def IsNumeral (text : List Char) (k : Nat) : Prop :=
  ∃ (lead cs : List Char) (base : Nat) (ds : List Nat),
    (lead = [] ∧ base = 10 ∨ lead = ['0', 'x'] ∧ base = 16 ∨ lead = ['0', 'b'] ∧ base = 2) ∧
    text = lead ++ cs ∧ cs ≠ [] ∧ List.Forall₂ IsDigitOf cs ds ∧ (∀ d ∈ ds, d < base) ∧
    k = ds.foldl (fun acc d => acc * base + d) 0

end Sys2Proof.Machine
end

