-- ==== Sys2Proof/Certificates/Slice0/Obligations.lean ====
section
/-! DEFINITION. The statements about the block, from the numbered rules of spec/. A statement on a rule that
the spec marks [derived] or on a convention of the model says so in its docstring. -/

open Sys2Proof Sys2Proof.Machine

/-! ## Encoding and decoding -/

/-- 30_encoding.md R41, R42, R44: the word of a well-formed command decodes to that command, with REND's two
fields at every value. -/
def Obligations.DecodeOfEncodeIsIdentity : Prop :=
  ∀ i : Instr, i.wf = true → decode (encode i) = .ok i

/-- 30_encoding.md R45, R46: the decoder accepts a word only as a well-formed command, and only as the one
whose word it is, so no two words mean the same command and no field bit is dropped. -/
def Obligations.EncodeOfDecodeIsIdentity : Prop :=
  ∀ (cw : CommandWord) (i : Instr), decode cw = .ok i → i.wf = true ∧ encode i = cw

/-- 30_encoding.md R45: which words are legal, by fields and in the match/mask form. -/
def Obligations.LegalWordsByFieldsAndByMask : Prop :=
  ∀ cw : CommandWord,
    (isLegal cw = true ↔
      rsvField cw = 0 ∧ (opField cw = 5 ∨ (altField cw = 0 ∧ widthField cw = 0))) ∧
    (isLegal cw = true ↔
      cw &&& 0xF807#16 = 0x0005#16 ∨ ∃ op : Nat, op < 8 ∧ op ≠ 5 ∧ cw = BitVec.ofNat 16 op)

/-- 30_encoding.md R45: there are exactly 263 legal words. -/
def Obligations.LegalWordsAre263 : Prop :=
  ∃ words : List CommandWord,
    words.Nodup ∧ words.length = 263 ∧ ∀ cw : CommandWord, isLegal cw = true ↔ cw ∈ words

/-- 30_encoding.md R44 and 95_test_vectors.md E1 to E24, the words written out by fields `rsv width alt op`:
each decodes to the command it stands for, or to no command. -/
def Obligations.DecodedWordsWrittenOut : Prop :=
  decode 0b00000_0000000_0_000#16 = .ok .nop ∧
  decode 0b00000_0000000_0_001#16 = .ok .load ∧
  decode 0b00000_0000000_0_010#16 = .ok .norm ∧
  decode 0b00000_0000000_0_011#16 = .ok .neg ∧
  decode 0b00000_0000000_0_100#16 = .ok .toint ∧
  decode 0b00000_0000110_1_101#16 = .ok (.rend true 6) ∧
  decode 0b00000_0000000_0_110#16 = .ok .fromu ∧
  decode 0b00000_0000000_0_111#16 = .ok .froms ∧
  decode 0b00000_0000001_0_010#16 = .error .strayModifier ∧
  decode 0b00001_0000000_0_101#16 = .error .reservedBits

/-- 30_encoding.md R46: when the host's next event is a command whose word decodes to `i`, the step is `exec i`
on the state with that event taken and the two operands on the ports. -/
def Obligations.StepRunsDecodedCommand : Prop :=
  ∀ (s : State) (c : Command) (rest : List HostEvent) (i : Instr),
    s.pending = .command c :: rest → decode c.cw = .ok i → i.wf = true →
    step s = exec i { s with pending := rest, dinP := c.dinP, dinN := c.dinN }

/-! ## NOP and LOAD -/

/-- 40_construct.md R60: NOP only answers `out.ill = 0`. -/
def Obligations.NopOnlyAnswers : Prop :=
  ∀ s : State,
    exec .nop s = .next { s with out := some { ill := false } } ∧
    ∀ a b : Word, step (present (.command ⟨0x0000#16, a, b⟩) s) =
      .next { s with dinP := a, dinN := b, out := some { ill := false } }

/-- 40_construct.md R62: LOAD writes both registers from the ports, whatever T was; the new value shows on the
continuous outputs. -/
def Obligations.LoadWritesOperands : Prop :=
  ∀ s : State,
    exec .load s = .next { s with P := s.dinP, N := s.dinN, out := some { ill := false } } ∧
    ∀ a b : Word, ∃ t : State, step (present (.command ⟨0x0001#16, a, b⟩) s) = .next t ∧
      t = { s with P := a, N := b, dinP := a, dinN := b, out := some { ill := false } } ∧
      t.tP = a ∧ t.tN = b ∧ t.coll = a &&& b ∧ (t.collAny = true ↔ a &&& b ≠ 0)

/-- 40_construct.md R63, which the spec marks [derived]: LOAD keeps every collision of its operands, on every
bit up to 63, and a pair that shares a bit leaves T not normalized. -/
def Obligations.LoadKeepsCollisions : Prop :=
  ∀ (s : State) (a b : Word), ∃ t : State,
    step (present (.command ⟨0x0001#16, a, b⟩) s) = .next t ∧
    (t.normalized = false ↔ ∃ i : Nat, i < 64 ∧ a.getLsbD i = true ∧ b.getLsbD i = true) ∧
    (∀ i : Nat, i < 64 → (trit t.P t.N i = none ↔ a.getLsbD i = true ∧ b.getLsbD i = true)) ∧
    (a = s.tP → b = s.tN → t.P = s.P ∧ t.N = s.N)

/-! ## NORM -/

/-- 41_normalize.md R72: NORM clears, in both words, every bit of the collision word before the step. -/
def Obligations.NormClearsCollidingBits : Prop :=
  ∀ s : State, ∃ t : State, exec .norm s = .next t ∧
    t = { s with P := s.P &&& ~~~(s.P &&& s.N), N := s.N &&& ~~~(s.P &&& s.N),
                 out := some { ill := false } } ∧
    t.coll = 0 ∧ t.collAny = false ∧
    ∀ a b : Word, step (present (.command ⟨0x0002#16, a, b⟩) s) =
      .next { t with dinP := a, dinN := b }

/-- 41_normalize.md R72, its equivalent forms, marked [derived]: `P & ~N`, `N & ~P`, and position by position
the pair of bits is kept unless both are set. -/
def Obligations.NormPositionByPosition : Prop :=
  ∀ s : State, ∃ t : State, exec .norm s = .next t ∧
    t.P = s.P &&& ~~~s.N ∧ t.N = s.N &&& ~~~s.P ∧
    ∀ i : Nat, (t.P.getLsbD i, t.N.getLsbD i) =
      if s.P.getLsbD i = true ∧ s.N.getLsbD i = true then (false, false)
      else (s.P.getLsbD i, s.N.getLsbD i)

/-- 41_normalize.md R73, marked [derived]: a second NORM changes nothing, exactly two bits are cleared per
collision, and the value after is that of the bits set in one word only. -/
def Obligations.NormIsIdempotentAndExact : Prop :=
  ∀ s : State, ∃ t : State, exec .norm s = .next t ∧ exec .norm t = .next t ∧
    popcount t.P + popcount t.N + 2 * popcount s.coll = popcount s.P + popcount s.N ∧
    val t.P t.N = some (maskValue (s.P &&& ~~~s.N) - maskValue (s.N &&& ~~~s.P)) ∧
    (s.coll = 0 → t.P = s.P ∧ t.N = s.N)

/-! ## NEG -/

/-- 42_negate.md R80: NEG answers with the masks exchanged and writes no register. -/
def Obligations.NegAnswersExchangedMasks : Prop :=
  ∀ s : State,
    exec .neg s = .next { s with out := some { ill := false, resP := some s.N, resN := some s.P } } ∧
    ∀ a b : Word, step (present (.command ⟨0x0003#16, a, b⟩) s) =
      .next { s with dinP := a, dinN := b,
                     out := some { ill := false, resP := some s.N, resN := some s.P } }

/-- 42_negate.md R81, whose parts on every pair of words are marked [derived]: the result has the same
collisions, negating it again gives T back, it has the opposite value when T has one, it commutes with NORM, and
it equals T only when the masks are equal. -/
def Obligations.NegIsTheAdditiveInverse : Prop :=
  ∀ s : State, ∃ (t : State) (p n : Word), exec .neg s = .next t ∧
    t.out = some { ill := false, resP := some p, resN := some n } ∧
    colliding p n = s.coll ∧
    exec .neg { s with P := p, N := n } =
      .next { s with P := p, N := n,
                     out := some { ill := false, resP := some s.P, resN := some s.N } } ∧
    (∀ z : Int, val s.P s.N = some z ↔ val p n = some (-z)) ∧
    normalizePair p n = ((normalizePair s.P s.N).2, (normalizePair s.P s.N).1) ∧
    ((p, n) = (s.P, s.N) ↔ s.P = s.N)

/-- 30_encoding.md R48: CLR makes T the zero value; NEGM, with the host carrying the result of NEG into a LOAD,
exchanges P and N in place. The line-to-command reading is the model's (log entry 10). -/
def Obligations.PseudoInstructionsClrAndNegm : Prop :=
  ∀ s : State,
    (∃ c : Command, expandLine .clr = some [.issue c] ∧
      ∃ t : State, step (present (.command c) s) = .next t ∧ t.P = 0 ∧ t.N = 0) ∧
    (∃ c : Command, expandLine .negm = some [.issue c, .carryForward] ∧
      ∃ (t : State) (e : HostEvent) (u : State),
        step (present (.command c) s) = .next t ∧ actionEvent t .carryForward = some e ∧
        step (present e t) = .next u ∧ u.P = s.N ∧ u.N = s.P ∧ u.pending = s.pending)

/-! ## TOINT -/

/-- 43_to_signed.md R90: the three conditional sums over positions 0 to 63, as a 128-bit two's complement
word, with `COLLIDE_COEFF` one of 0 and 1; on a normalized T it is the value of T. T is not written. -/
def Obligations.TointAnswersTheSum : Prop :=
  ∀ s : State, ∃ z : Int,
    z = ∑ i ∈ Finset.range 64,
      ((if s.P.getLsbD i = true ∧ s.N.getLsbD i = false then 3 ^ i else 0) -
       (if s.P.getLsbD i = false ∧ s.N.getLsbD i = true then 3 ^ i else 0) +
       (if s.P.getLsbD i = true ∧ s.N.getLsbD i = true then Config.collideCoeff.toInt * 3 ^ i
        else 0)) ∧
    (Config.collideCoeff.toInt = 0 ∨ Config.collideCoeff.toInt = 1) ∧
    (s.normalized = true → val s.P s.N = some z) ∧
    exec .toint s =
      .next { s with out := some { ill := false, resInt := some (BitVec.ofInt 128 z) } } ∧
    ∀ a b : Word, step (present (.command ⟨0x0004#16, a, b⟩) s) =
      .next { s with dinP := a, dinN := b,
                     out := some { ill := false, resInt := some (BitVec.ofInt 128 z) } }

/-- 43_to_signed.md R92, R94 (a): on a normalized T the result is the value of T whatever `COLLIDE_COEFF` is.
For both admissible values. -/
def Obligations.TointOfNormalizedIsTheValue : Prop :=
  ∀ (s : State) (z : Int), val s.P s.N = some z →
    (∀ c : CollideCoeff, signedSum c s.P s.N = z) ∧
    ∃ (t : State) (w : Int128), exec .toint s = .next t ∧
      t.out = some { ill := false, resInt := some w } ∧ w.toInt = z

/-- 43_to_signed.md R93, marked [derived]: for every T and both values of `COLLIDE_COEFF` the sum lies within
`MAXV < 2^101`, so the 128-bit word holds it with bits 127 down to 101 all the sign, and the accumulator of the
reference loop never passes `3^64`. -/
def Obligations.TointNeverOverflows : Prop :=
  ∀ (c : CollideCoeff) (p n : Word),
    -Config.maxValue ≤ signedSum c p n ∧ signedSum c p n ≤ Config.maxValue ∧
    Config.maxValue < 2 ^ 101 ∧
    (BitVec.ofInt 128 (signedSum c p n)).toInt = signedSum c p n ∧
    (∀ b : Nat, 101 ≤ b → b < 128 →
      (BitVec.ofInt 128 (signedSum c p n)).getLsbD b = (BitVec.ofInt 128 (signedSum c p n)).msb) ∧
    (referenceLoop c p n).acc ≤ 3 ^ 64

/-- 43_to_signed.md R91: the document's loop, which stops at the highest set bit, computes the sum that TOINT
delivers, in `64 - clz64(P | N)` passes, for every T and both values of `COLLIDE_COEFF`. The equality of the
loop and the fixed-length sum is marked [derived]. -/
def Obligations.ReferenceLoopComputesTheSum : Prop :=
  ∀ (c : CollideCoeff) (p n : Word),
    (referenceLoop c p n).sum = signedSum c p n ∧
    (referenceLoop c p n).passes = 64 - clz64 (p ||| n) ∧
    (referenceLoop c p n).p = 0 ∧ (referenceLoop c p n).n = 0

/-- 43_to_signed.md R94 (a), marked [derived]: a T with collisions converts to the result of NORM's pair plus
`COLLIDE_COEFF` times the powers at the colliding positions. -/
def Obligations.TointBeforeAndAfterNorm : Prop :=
  ∀ (c : CollideCoeff) (p n : Word),
    signedSum c p n =
      signedSum c (normalizePair p n).1 (normalizePair p n).2 +
        c.toInt * maskValue (colliding p n) ∧
    val (normalizePair p n).1 (normalizePair p n).2 =
      some (signedSum c (normalizePair p n).1 (normalizePair p n).2)

/-- 43_to_signed.md R94 (b) and 42_negate.md R81 (c), marked [derived]: how the results of T and of its
exchange are related, and exactly when the sign flips. -/
def Obligations.TointOfExchangedMasks : Prop :=
  ∀ (c : CollideCoeff) (p n : Word),
    signedSum c n p + signedSum c p n = 2 * (c.toInt * maskValue (colliding p n)) ∧
    (signedSum c n p = -signedSum c p n ↔ c = .zero ∨ isNormalized p n = true)

/-! ## FROMU and FROMS -/

/-- 44_from_binary.md R101: FROMU writes a normalized pair whose value is `din_p` read as unsigned, with bits
42 to 63 zero, whatever T and `din_n` were. -/
def Obligations.FromuWritesTheUnsignedValue : Prop :=
  ∀ s : State, ∃ t : State, exec .fromu s = .next t ∧
    t = { s with P := t.P, N := t.N, out := some { ill := false } } ∧
    (t.P, t.N) = encodeUnsigned s.dinP.toNat ∧
    t.coll = 0 ∧ t.collAny = false ∧ val t.P t.N = some (s.dinP.toNat : Int) ∧
    (∀ i : Nat, 42 ≤ i → t.P.getLsbD i = false ∧ t.N.getLsbD i = false) ∧
    ∀ (q m : Word) (b : Word),
      step (present (.command ⟨0x0006#16, s.dinP, b⟩) { s with P := q, N := m }) =
        .next { t with dinN := b }

/-- 44_from_binary.md R103: FROMS writes a normalized pair whose value is `din_p` read as two's complement, a
negative one by exchanging the encoding of its magnitude, with positions 41 to 63 zero. -/
def Obligations.FromsWritesTheSignedValue : Prop :=
  ∀ s : State, ∃ t : State, exec .froms s = .next t ∧
    t = { s with P := t.P, N := t.N, out := some { ill := false } } ∧
    (0 ≤ s.dinP.toInt → (t.P, t.N) = encodeUnsigned s.dinP.toInt.toNat) ∧
    (s.dinP.toInt < 0 → (t.N, t.P) = encodeUnsigned (-s.dinP.toInt).toNat) ∧
    t.coll = 0 ∧ t.collAny = false ∧ val t.P t.N = some s.dinP.toInt ∧
    (∀ i : Nat, 41 ≤ i → t.P.getLsbD i = false ∧ t.N.getLsbD i = false) ∧
    ∀ (q m : Word) (b : Word),
      step (present (.command ⟨0x0007#16, s.dinP, b⟩) { s with P := q, N := m }) =
        .next { t with dinN := b }

/-- 10_state.md R13: every value lies in `-MAXV .. +MAXV`, and every integer there is the value of exactly one
normalized pair; there are `3^64` of them. So the contract of 44_from_binary.md R100 fixes every bit. -/
def Obligations.ValuesAreUnique : Prop :=
  2 * Config.maxValue + 1 = 3 ^ 64 ∧
  (∀ (p n : Word) (z : Int), val p n = some z →
    -Config.maxValue ≤ z ∧ z ≤ Config.maxValue ∧ z = maskValue p - maskValue n) ∧
  ∀ z : Int, -Config.maxValue ≤ z → z ≤ Config.maxValue →
    ∃ pair : Word × Word, val pair.1 pair.2 = some z ∧
      ∀ other : Word × Word, val other.1 other.2 = some z → other = pair

/-- 44_from_binary.md R100, property P1: FROMS and then TOINT answers the operand sign-extended to 128 bits,
for either `COLLIDE_COEFF` and from every state. -/
def Obligations.SignedRoundTrip : Prop :=
  ∀ (s : State) (d b x y : Word), ∃ t u : State,
    step (present (.command ⟨0x0007#16, d, b⟩) s) = .next t ∧
    step (present (.command ⟨0x0004#16, x, y⟩) t) = .next u ∧
    u.out = some { ill := false, resInt := some (d.signExtend 128) } ∧
    u.P = t.P ∧ u.N = t.N

/-- 43_to_signed.md R94 (c): FROMU and then TOINT answers the operand zero-extended to 128 bits. -/
def Obligations.UnsignedRoundTrip : Prop :=
  ∀ (s : State) (d b x y : Word), ∃ t u : State,
    step (present (.command ⟨0x0006#16, d, b⟩) s) = .next t ∧
    step (present (.command ⟨0x0004#16, x, y⟩) t) = .next u ∧
    u.out = some { ill := false, resInt := some (d.setWidth 128) } ∧
    u.P = t.P ∧ u.N = t.N

/-- 44_from_binary.md R104, marked [derived] and informative (70_reset_and_hazards.md R162): the passes of
`enc_u` are the least `k` with `m <= (3^k - 1)/2`; at most 41 up to `2^63`, at most 42 below `2^64`, and all 42
above `(3^41 - 1)/2`, where bit 41 of P is set. -/
def Obligations.EncoderPassesAreLeast : Prop :=
  ∀ m : Nat, m < 2 ^ 64 →
    (∀ k : Nat, encodePasses m ≤ k ↔ m ≤ (3 ^ k - 1) / 2) ∧
    (m ≤ 2 ^ 63 → encodePasses m ≤ 41) ∧ encodePasses m ≤ 42 ∧
    (18236498188585393202 ≤ m → encodePasses m = 42 ∧ (encodeUnsigned m).1.getLsbD 41 = true)

/-- 44_from_binary.md R103, marked [derived]: the single loop with floored division gives the pair that FROMS
writes, for every operand. -/
def Obligations.FlooredDivisionGivesTheSamePair : Prop :=
  ∀ (s : State), ∃ t : State, exec .froms s = .next t ∧
    encodeFloored s.dinP.toInt = (t.P, t.N) ∧
    (s.dinP.msb = false → exec .fromu s = .next t)

/-! ## REND -/

/-- 45_render.md R110, with the characters of R111, the trimming of R112, the mark of R113, the padding of R114
and the code table of R115 in numbers: the pseudocode of REND for every `alt` and every `width` the field admits.
T is not written. -/
def Obligations.RendAnswersTheText : Prop :=
  ∀ (s : State) (alt : Bool) (width : Nat), width ≤ 127 →
    ∃ (z : Nat) (c : Nat → TextChar) (mark text : List TextChar) (code : TextChar → CharCode),
      code .plus = 0x2B#8 ∧ code .minus = 0x2D#8 ∧ code .zero = 0x30#8 ∧ code .t = 0x74#8 ∧
      (∀ k : Nat, k < 64 → c k =
        if s.P.getLsbD (63 - k) = true ∧ s.N.getLsbD (63 - k) = false then .plus
        else if s.P.getLsbD (63 - k) = false ∧ s.N.getLsbD (63 - k) = true then .minus
        else .zero) ∧
      z ≤ 64 ∧ (∀ k : Nat, k < z → c k = .zero) ∧ (z < 64 → c z ≠ .zero) ∧
      mark = (if alt then [.zero, .t] else []) ∧
      text = mark ++
        List.replicate
          (if width > mark.length + (64 - z) then width - (mark.length + (64 - z)) else 0) .zero ++
        (List.range (64 - z)).map (fun j => c (z + j)) ∧
      exec (.rend alt width) s =
        .next { s with out := some { ill := false, textLen := some (BitVec.ofNat 7 text.length),
                                     text := some (text.map code) } } ∧
      (BitVec.ofNat 7 text.length).toNat = text.length ∧
      ∀ a b : Word,
        step (present (.command ⟨BitVec.ofNat 16 (0x0005 + 8 * alt.toNat + 16 * width), a, b⟩) s) =
          .next { s with dinP := a, dinN := b,
                         out := some { ill := false,
                                       textLen := some (BitVec.ofNat 7 text.length),
                                       text := some (text.map code) } }

/-- 45_render.md R112, R116, marked [derived]: `64 - clz64(P ^ N)` digits, the first of them not `'0'`, and a
total of `max(D + 2*alt, width)` characters. -/
def Obligations.RenderedLengths : Prop :=
  ∀ (alt : Bool) (width : Nat) (p n : Word),
    (digits p n).length = 64 - clz64 (p ^^^ n) ∧
    (digits p n).head? ≠ some .zero ∧
    (renderText alt width p n).length = max ((digits p n).length + 2 * alt.toNat) width ∧
    (width ≤ 127 → (renderText alt width p n).length ≤ 127)

/-- 45_render.md R111, its last clause marked [derived]: the rendering of any T is the rendering of what NORM
makes of it. -/
def Obligations.RendDoesNotShowCollisions : Prop :=
  ∀ (s : State) (alt : Bool) (width : Nat), ∃ t u v : State,
    exec .norm s = .next t ∧ exec (.rend alt width) s = .next u ∧
    exec (.rend alt width) t = .next v ∧ u.out = v.out ∧ u.P = s.P ∧ u.N = s.N

/-- 45_render.md R119 (j) and R114, marked [derived]: on a normalized T the digits, padded or not, are a numeral
of the value of T, and no shorter string of digits has that value. -/
def Obligations.RenderedDigitsAreTheShortestNumeral : Prop :=
  ∀ (p n : Word) (z : Int), val p n = some z →
    (∀ k : Nat, numeralValue (List.replicate k .zero ++ digits p n) = z) ∧
    (∀ c ∈ digits p n, c ≠ .t) ∧
    ∀ cs : List TextChar, (∀ c ∈ cs, c ≠ .t) → numeralValue cs = z →
      (digits p n).length ≤ cs.length

/-- 45_render.md R117, marked [derived]: with equal masks there is no digit, and the text is the mark and the
padding alone. -/
def Obligations.EqualMasksRenderNoDigit : Prop :=
  ∀ (s : State) (alt : Bool) (width : Nat), s.P = s.N → width ≤ 127 →
    exec (.rend alt width) s =
      .next { s with out := some { ill := false,
                                   textLen := some (BitVec.ofNat 7 (max (2 * alt.toNat) width)),
                                   text := some ((if alt then [0x30, 0x74] else []) ++
                                     List.replicate (width - 2 * alt.toNat) 0x30) } }

/-! ## Illegal words, events, totality -/

/-- 60_exceptions.md R132: an illegal word leaves T, answers `out.ill = 1` and nothing else, and the next event
has the effect it would have had without it; the model's mark of the run is set. -/
def Obligations.IllegalCommandChangesNothing : Prop :=
  ∀ (s : State) (cw : CommandWord) (a b : Word), isLegal cw = false →
    step (present (.command ⟨cw, a, b⟩) s) =
      .next { s with dinP := a, dinN := b, out := some { ill := true }, illegalSeen := true } ∧
    ∀ e : HostEvent, ∃ t u : State,
      step (present e { s with dinP := a, dinN := b, out := some { ill := true },
                               illegalSeen := true }) = .next t ∧
      step (present e s) = .next u ∧
      t.P = u.P ∧ t.N = u.N ∧ t.out = u.out ∧ t.pending = u.pending

/-- 60_exceptions.md R132 and log entry 5 (the model's bookkeeping): the mark is set by illegal words only and
nothing clears it; `out.ill` is 1 exactly on an illegal word. -/
def Obligations.IllegalWordsAreRecordedExactly : Prop :=
  ∀ s : State, ∃ t : State, step s = .next t ∧
    (t.illegalSeen = true ↔ s.illegalSeen = true ∨
      ∃ (c : Command) (rest : List HostEvent),
        s.pending = .command c :: rest ∧ isLegal c.cw = false) ∧
    ((∃ r : OutRecord, t.out = some r ∧ r.ill = true) ↔
      ∃ (c : Command) (rest : List HostEvent),
        s.pending = .command c :: rest ∧ isLegal c.cw = false)

/-- 60_exceptions.md R130: none of the eight commands raises an exception, whatever the state and the operands:
each answers a next state with `out.ill = 0`, and so does not fault and is not refused. -/
def Obligations.EveryCommandCompletes : Prop :=
  ∀ (i : Instr) (s : State), ∃ (t : State) (r : OutRecord),
    exec i s = .next t ∧ t.out = some r ∧ r.ill = false

/-- 20_memory.md R34: every step answers a next state, a step with an event pending takes exactly the first
one, and so `k` steps take the first `k` events in order. -/
def Obligations.EventsAreTakenInOrder : Prop :=
  ∀ (k : Nat) (s : State), ∃ t : State,
    Sys2Proof.core.run k s = .next t ∧ State.pending t = s.pending.drop k

/-- 30_encoding.md R40: while the host presents nothing, T keeps its value, no output record is produced and the
continuous outputs keep showing T. That an empty list of events is such an interval is the model's (log entry
2). -/
def Obligations.IdleKeepsT : Prop :=
  ∀ s : State,
    step (present .idle s) = .next { s with out := none } ∧
    (s.pending = [] → step s = .next { s with out := none })

/-- 70_reset_and_hazards.md R150, R152: reset clears both registers, leaves no output record and does nothing
else; the state after reset is the zero value and the continuous outputs are zero. -/
def Obligations.ResetClearsT : Prop :=
  (∀ s : State, ∃ t : State, step (present .reset s) = .next t ∧
    t = { s with P := 0, N := 0, out := none } ∧
    t.tP = 0 ∧ t.tN = 0 ∧ t.coll = 0 ∧ t.collAny = false) ∧
  State.reset.P = 0 ∧ State.reset.N = 0 ∧ State.reset.out = none ∧
  State.reset.tP = 0 ∧ State.reset.tN = 0 ∧ State.reset.coll = 0 ∧ State.reset.collAny = false ∧
  val State.reset.P State.reset.N = some 0

/-! ## State, outputs, frames -/

/-- 10_state.md R11: the four rows of the trit table, at positions 0 to 63 (90_conflicts.md C1). -/
def Obligations.TritTable : Prop :=
  ∀ (p n : Word) (i : Nat), i < 64 →
    (trit p n i = some 1 ↔ p.getLsbD i = true ∧ n.getLsbD i = false) ∧
    (trit p n i = some (-1) ↔ p.getLsbD i = false ∧ n.getLsbD i = true) ∧
    (trit p n i = some 0 ↔ p.getLsbD i = false ∧ n.getLsbD i = false) ∧
    (trit p n i = none ↔ p.getLsbD i = true ∧ n.getLsbD i = true)

/-- 10_state.md R21: the four continuous outputs are functions of T and of nothing else. -/
def Obligations.ContinuousOutputsShowT : Prop :=
  ∀ s : State,
    s.tP = s.P ∧ s.tN = s.N ∧ s.coll = s.P &&& s.N ∧
    (∀ i : Nat, i < 64 → (s.coll.getLsbD i = true ↔ s.P.getLsbD i = true ∧ s.N.getLsbD i = true)) ∧
    (s.collAny = true ↔ s.coll ≠ 0) ∧ (s.collAny = true ↔ s.normalized = false) ∧
    ∀ t : State, t.P = s.P → t.N = s.N →
      t.tP = s.tP ∧ t.tN = s.tN ∧ t.coll = s.coll ∧ t.collAny = s.collAny

/-- 41_normalize.md R70, whose properties are marked [derived]: the collision word is symmetric in the masks,
and its set bits are counted by the colliding positions, 0 to 64. -/
def Obligations.CollisionDetectorCounts : Prop :=
  ∀ p n : Word,
    colliding p n = colliding n p ∧
    popcount (colliding p n) =
      ((Finset.range 64).filter fun i => trit p n i = none).card ∧
    popcount (colliding p n) ≤ 64 ∧
    (popcount (colliding p n) = 0 ↔ isNormalized p n = true)

/-- 10_state.md R14, R20: what each command leaves as it was, and which output fields it writes. No command
changes the ports, the host's list or the model's mark; NOP, NEG, TOINT and REND write no register; a field of
the output record has a value only for the command whose field it is. -/
def Obligations.FrameOfEveryCommand : Prop :=
  ∀ (i : Instr) (s : State), ∃ (t : State) (r : OutRecord), exec i s = .next t ∧ t.out = some r ∧
    t.dinP = s.dinP ∧ t.dinN = s.dinN ∧ t.pending = s.pending ∧ t.illegalSeen = s.illegalSeen ∧
    (i ≠ .load → i ≠ .norm → i ≠ .fromu → i ≠ .froms → t.P = s.P ∧ t.N = s.N) ∧
    (r.resP.isSome = true ↔ i = .neg) ∧ (r.resN.isSome = true ↔ i = .neg) ∧
    (r.resInt.isSome = true ↔ i = .toint) ∧
    (r.text.isSome = true ↔ ∃ alt width, i = .rend alt width) ∧
    (r.textLen.isSome = true ↔ ∃ alt width, i = .rend alt width)

/-- 10_state.md R14, 70_reset_and_hazards.md R161: an event that is not reset, LOAD, NORM, FROMU or FROMS leaves
both registers, an illegal word naming one of them included. -/
def Obligations.OnlyWritersChangeT : Prop :=
  ∀ (s : State) (e : HostEvent), e.writesT = false → ∃ t : State,
    step (present e s) = .next t ∧ t.P = s.P ∧ t.N = s.N ∧ t.pending = s.pending

/-- 30_encoding.md R43, 93_implementation_defined.md U10, 10_state.md R14: an operand port a command does not
use changes nothing, and a register it does not read changes nothing. -/
def Obligations.UnusedInputsAreIgnored : Prop :=
  ∀ (i : Instr) (s : State) (a b p n : Word), ∃ t : State, exec i s = .next t ∧
    (i ≠ .load → exec i { s with dinN := b } = .next { t with dinN := b }) ∧
    (i ≠ .load → i ≠ .fromu → i ≠ .froms →
      exec i { s with dinP := a, dinN := b } = .next { t with dinP := a, dinN := b }) ∧
    (i = .load ∨ i = .fromu ∨ i = .froms → exec i { s with P := p, N := n } = .next t) ∧
    (i = .nop → exec i { s with P := p, N := n } = .next { t with P := p, N := n })

/-- 10_state.md R23, marked [derived]: two states with equal P and N and the same events to come go on equal
for ever: equal registers, equal records, whatever stood on the ports, in the record or in the model's mark. -/
def Obligations.RegistersDetermineTheRun : Prop :=
  ∀ (k : Nat) (s t : State), s.SameBlock t → ∃ u v : State,
    Sys2Proof.core.run k s = .next u ∧ Sys2Proof.core.run k t = .next v ∧
    u.SameBlock v ∧ (0 < k → u.out = v.out)

/-! ## Invariants -/

/-- 10_state.md R12, marked [derived]: NORM, FROMU, FROMS and reset leave T normalized from every state, and
LOAD exactly when its operands share no bit. -/
def Obligations.WritersThatNormalize : Prop :=
  ∀ s : State,
    (∀ i : Instr, i = .norm ∨ i = .fromu ∨ i = .froms →
      ∃ t : State, exec i s = .next t ∧ t.normalized = true) ∧
    (∃ t : State, exec .load s = .next t ∧ (t.normalized = true ↔ s.dinP &&& s.dinN = 0)) ∧
    (∃ t : State, step (present .reset s) = .next t ∧ t.normalized = true)

/-- 70_reset_and_hazards.md R161, marked [derived]: while no LOAD with colliding operands is to come, every
step keeps `P & N = 0`. -/
def Obligations.StepKeepsNormalized : Prop :=
  ∀ s t : State, s.staysNormalized = true → step s = .next t → t.staysNormalized = true

/-- 10_state.md R22: the state after reset is normalized. That the host has nothing in store then is the
model's (log entry 2). -/
def Obligations.ResetIsNormalized : Prop :=
  State.reset.normalized = true ∧ State.reset.staysNormalized = true

/-- 10_state.md R20, 43_to_signed.md R93, 45_render.md R115, R116: every step leaves the outputs in order (at
most one result, none beside `ill = 1`, a text as long as it says and of the four codes, an integer in range), and
a record of an illegal command is in the model's mark (log entry 5). -/
def Obligations.StepKeepsOutputsInOrder : Prop :=
  ∀ s t : State, s.OutputsInOrder → step s = .next t → t.OutputsInOrder

/-- 10_state.md R22, 70_reset_and_hazards.md R152: no output record exists after reset, so the outputs are in
order. -/
def Obligations.ResetOutputsInOrder : Prop :=
  State.reset.OutputsInOrder

/-! ## The notation of listings -/

/-- 30_encoding.md R47: the commands that the lines of a listing present, for every number in the range the
table gives; outside it the model refuses the line (log entry 10), FROMS with the operand word of a negative
number included (log entry 13). -/
def Obligations.ListingLinesPresentTheirCommands : Prop :=
  expandLine .nop = some [.issue ⟨0x0000#16, 0, 0⟩] ∧
  expandLine .norm = some [.issue ⟨0x0002#16, 0, 0⟩] ∧
  expandLine .neg = some [.issue ⟨0x0003#16, 0, 0⟩] ∧
  expandLine .toint = some [.issue ⟨0x0004#16, 0, 0⟩] ∧
  (∀ p n : Word, expandLine (.load p.toNat n.toNat) = some [.issue ⟨0x0001#16, p, n⟩]) ∧
  (∀ w : Nat, w ≤ 127 →
    expandLine (.rend false w) = some [.issue ⟨BitVec.ofNat 16 (0x0005 + 16 * w), 0, 0⟩] ∧
    expandLine (.rend true w) = some [.issue ⟨BitVec.ofNat 16 (0x000D + 16 * w), 0, 0⟩]) ∧
  (∀ u : Word, expandLine (.fromu u.toNat) = some [.issue ⟨0x0006#16, u, 0⟩]) ∧
  (∀ u : Word, expandLine (.froms u.toInt) = some [.issue ⟨0x0007#16, u, 0⟩]) ∧
  (∀ p n : Nat, 2 ^ 64 ≤ p ∨ 2 ^ 64 ≤ n → expandLine (.load p n) = none) ∧
  (∀ u : Nat, 2 ^ 64 ≤ u → expandLine (.fromu u) = none) ∧
  (∀ z : Int, z < -(2 ^ 63) ∨ 2 ^ 63 ≤ z → expandLine (.froms z) = none) ∧
  (∀ w : Nat, ∀ alt : Bool, 127 < w → expandLine (.rend alt w) = none)

/-- 30_encoding.md R47, R48: how a line of text is read. Each form of the table, with every decimal, hexadecimal
or binary number, reads as its line; a `;` starts a comment; a line whose first word is none of the mnemonics, in
upper case, is refused. Either case of a hexadecimal digit is the model's (log entry 10); FROMS numbers of `2^63`
and more read as lines that are refused (log entry 13). -/
def Obligations.ListingTextIsReadAsItsLine : Prop :=
  assembleLine "NOP".toList = expandLine .nop ∧
  assembleLine "NORM".toList = expandLine .norm ∧
  assembleLine "NEG".toList = expandLine .neg ∧
  assembleLine "TOINT".toList = expandLine .toint ∧
  assembleLine "REND".toList = expandLine (.rend false 0) ∧
  assembleLine "REND #".toList = expandLine (.rend true 0) ∧
  assembleLine "CLR".toList = expandLine .clr ∧
  assembleLine "NEGM".toList = expandLine .negm ∧
  (∀ (text : List Char) (k : Nat), IsNumeral text k →
    assembleLine ("REND ".toList ++ text) = expandLine (.rend false k) ∧
    assembleLine ("REND #, ".toList ++ text) = expandLine (.rend true k) ∧
    assembleLine ("FROMU ".toList ++ text) = expandLine (.fromu k) ∧
    assembleLine ("FROMS ".toList ++ text) = expandLine (.froms k) ∧
    assembleLine ("FROMS -".toList ++ text) = expandLine (.froms (-k)) ∧
    ∀ (text' : List Char) (k' : Nat), IsNumeral text' k' →
      assembleLine ("LOAD ".toList ++ text ++ ", ".toList ++ text') = expandLine (.load k k')) ∧
  (∀ text note : List Char, assembleLine (text ++ ';' :: note) = assembleLine text) ∧
  (∀ (text word : List Char) (tokens : List Token), lexLine text [] = .word word :: tokens →
    word ∉ ["NOP".toList, "LOAD".toList, "NORM".toList, "NEG".toList, "TOINT".toList,
      "REND".toList, "FROMU".toList, "FROMS".toList, "CLR".toList, "NEGM".toList] →
    assembleLine text = none)
end

