-- ==== Sys2Proof/Laws/Listing.lean ====
section
/-! SUPPORT. What the reader of listing lines can do, each function said once: a digit, a run of digits, a
numeral, a word without separators, a line from its tokens. -/

namespace Sys2Proof.Machine

/-- The character ends no word and starts no comment. -/
def IsPlain (c : Char) : Prop := c ≠ ';' ∧ c ≠ ' ' ∧ c ≠ '\t' ∧ c ≠ ',' ∧ c ≠ '#'

/-- A written digit reads as itself and is plain, neither a minus sign nor the `x` of `0x`. -/
theorem digitOf_of_isDigitOf {c : Char} {d : Nat} (h : IsDigitOf c d) (hd : d < 16) :
    digitOf c = some d ∧ IsPlain c ∧ c ≠ '-' ∧ c ≠ 'x' := by
  unfold IsPlain
  interval_cases d <;> rcases h with rfl | rfl <;> decide

/-- A decimal digit is not the `b` of `0b`. -/
theorem ne_b_of_isDigitOf {c : Char} {d : Nat} (h : IsDigitOf c d) (hd : d < 10) : c ≠ 'b' := by
  interval_cases d <;> rcases h with rfl | rfl <;> decide

/-- Written digits read as the number they write, after the value read so far. -/
theorem readDigits_of_digits {base : Nat} (hb : base ≤ 16) {cs : List Char} {ds : List Nat}
    (h : List.Forall₂ IsDigitOf cs ds) (hd : ∀ d ∈ ds, d < base) (acc : Nat) :
    readDigits base cs acc = some (ds.foldl (fun acc d => acc * base + d) acc) := by
  induction h generalizing acc with
  | nil => rfl
  | cons h1 _ ih =>
    have hlt := hd _ List.mem_cons_self
    rw [readDigits, (digitOf_of_isDigitOf h1 (by omega)).1]
    simp only [hlt, if_true, List.foldl_cons]
    exact ih (fun d hd' => hd d (List.mem_cons_of_mem _ hd')) _

/-- Written digits are plain and hold no minus sign. -/
theorem plain_of_digits {cs : List Char} {ds : List Nat} (h : List.Forall₂ IsDigitOf cs ds)
    (hd : ∀ d ∈ ds, d < 16) : ∀ c ∈ cs, IsPlain c ∧ c ≠ '-' := by
  induction h with
  | nil => simp
  | cons h1 _ ih =>
    intro c hc
    rcases List.mem_cons.1 hc with rfl | hc
    · have hc := digitOf_of_isDigitOf h1 (hd _ List.mem_cons_self)
      exact ⟨hc.2.1, hc.2.2.1⟩
    · exact ih (fun d hd' => hd d (List.mem_cons_of_mem _ hd')) c hc

/-- A numeral is a word of plain characters that does not begin with a minus sign. -/
theorem plain_of_numeral {text : List Char} {k : Nat} (h : IsNumeral text k) :
    (∀ c ∈ text, IsPlain c) ∧ text ≠ [] ∧ text.head? ≠ some '-' := by
  obtain ⟨lead, cs, base, ds, hl, rfl, hne, hf, hd, -⟩ := h
  have hb : base ≤ 16 := by rcases hl with h | h | h <;> omega
  have hc := plain_of_digits hf fun d h => lt_of_lt_of_le (hd d h) hb
  rcases hl with ⟨rfl, -⟩ | ⟨rfl, -⟩ | ⟨rfl, -⟩
  · refine ⟨fun c h => (hc c h).1, hne, ?_⟩
    cases cs with
    | nil => simp
    | cons a t => simpa using (hc a List.mem_cons_self).2
  all_goals
    refine ⟨fun c h => ?_, by simp, by simp⟩
    simp only [List.cons_append, List.nil_append, List.mem_cons] at h
    rcases h with rfl | rfl | h
    · simp [IsPlain]
    · simp [IsPlain]
    · exact (hc c h).1

/-- A numeral reads as its number. -/
theorem readNat_of_numeral {text : List Char} {k : Nat} (h : IsNumeral text k) :
    readNat text = some k := by
  obtain ⟨lead, cs, base, ds, hl, rfl, hne, hf, hd, rfl⟩ := h
  rcases hl with ⟨rfl, rfl⟩ | ⟨rfl, rfl⟩ | ⟨rfl, rfl⟩
  · rw [List.nil_append, ← readDigits_of_digits (by omega) hf hd 0]
    unfold readNat
    cases hf with
    | nil => exact absurd rfl hne
    | cons _ h2 =>
      cases h2 with
      | nil => split <;> simp_all
      | cons h3 _ =>
        have hlt := hd _ (List.mem_cons_of_mem _ List.mem_cons_self)
        have hx := (digitOf_of_isDigitOf h3 (by omega)).2.2.2
        have hb := ne_b_of_isDigitOf h3 hlt
        split <;> simp_all
  · rw [← readDigits_of_digits (by omega) hf hd 0]
    unfold readNat
    split <;> simp_all
  · rw [← readDigits_of_digits (by omega) hf hd 0]
    unfold readNat
    split <;> simp_all

/-- Plain characters are gathered into the word at hand. -/
theorem lexLine_append_of_plain {text : List Char} (h : ∀ c ∈ text, IsPlain c)
    (rest acc : List Char) : lexLine (text ++ rest) acc = lexLine rest (text.reverse ++ acc) := by
  induction text generalizing acc with
  | nil => rfl
  | cons c t ih =>
    obtain ⟨h1, h2, h3, h4, h5⟩ := h c List.mem_cons_self
    rw [List.cons_append, lexLine]
    simp only [h1, h2, h3, h4, h5, if_false, false_or]
    rw [ih (fun c hc => h c (List.mem_cons_of_mem _ hc))]
    simp

/-- A word at the end of the line is one token. -/
theorem lexLine_of_plain {text : List Char} (h : ∀ c ∈ text, IsPlain c) (hne : text ≠ [])
    (acc : List Char) : lexLine text acc = [.word (acc.reverse ++ text)] := by
  have hl := lexLine_append_of_plain h [] acc
  rw [List.append_nil] at hl
  simp [hl, lexLine, flushWord, hne]

/-- A line whose tokens read as `l` stands for the actions of `l`. -/
theorem assembleLine_of_tokens {text : List Char} {tokens : List Token} {l : AsmLine}
    (h : lexLine text [] = tokens) (hne : tokens ≠ []) (hl : readTokens tokens = some l) :
    assembleLine text = expandLine l := by
  unfold assembleLine
  rw [h]
  cases tokens with
  | nil => exact absurd rfl hne
  | cons => simp only [hl]; rfl

end Sys2Proof.Machine
end

