-- ==== Sys2Proof/Laws/State.lean ====
section
/-! SUPPORT. What each field of State is after each shared update, and after reset: one lemma per field per
update. -/

namespace Sys2Proof.Machine

@[simp] theorem writeT_P (pair : Word × Word) (s : State) :
    (writeT pair s).P = pair.1 := rfl

@[simp] theorem writeT_N (pair : Word × Word) (s : State) :
    (writeT pair s).N = pair.2 := rfl

@[simp] theorem writeT_out (pair : Word × Word) (s : State) :
    (writeT pair s).out = s.out := rfl

@[simp] theorem writeT_dinP (pair : Word × Word) (s : State) :
    (writeT pair s).dinP = s.dinP := rfl

@[simp] theorem writeT_dinN (pair : Word × Word) (s : State) :
    (writeT pair s).dinN = s.dinN := rfl

@[simp] theorem writeT_pending (pair : Word × Word) (s : State) :
    (writeT pair s).pending = s.pending := rfl

@[simp] theorem writeT_illegalSeen (pair : Word × Word) (s : State) :
    (writeT pair s).illegalSeen = s.illegalSeen := rfl

@[simp] theorem applyReset_P (s : State) :
    (applyReset s).P = 0 := rfl

@[simp] theorem applyReset_N (s : State) :
    (applyReset s).N = 0 := rfl

@[simp] theorem applyReset_out (s : State) :
    (applyReset s).out = none := rfl

@[simp] theorem applyReset_dinP (s : State) :
    (applyReset s).dinP = s.dinP := rfl

@[simp] theorem applyReset_dinN (s : State) :
    (applyReset s).dinN = s.dinN := rfl

@[simp] theorem applyReset_pending (s : State) :
    (applyReset s).pending = s.pending := rfl

@[simp] theorem applyReset_illegalSeen (s : State) :
    (applyReset s).illegalSeen = s.illegalSeen := rfl

@[simp] theorem idleInterval_P (s : State) :
    (idleInterval s).P = s.P := rfl

@[simp] theorem idleInterval_N (s : State) :
    (idleInterval s).N = s.N := rfl

@[simp] theorem idleInterval_out (s : State) :
    (idleInterval s).out = none := rfl

@[simp] theorem idleInterval_dinP (s : State) :
    (idleInterval s).dinP = s.dinP := rfl

@[simp] theorem idleInterval_dinN (s : State) :
    (idleInterval s).dinN = s.dinN := rfl

@[simp] theorem idleInterval_pending (s : State) :
    (idleInterval s).pending = s.pending := rfl

@[simp] theorem idleInterval_illegalSeen (s : State) :
    (idleInterval s).illegalSeen = s.illegalSeen := rfl

@[simp] theorem dequeue_P (rest : List HostEvent) (s : State) :
    (dequeue rest s).P = s.P := rfl

@[simp] theorem dequeue_N (rest : List HostEvent) (s : State) :
    (dequeue rest s).N = s.N := rfl

@[simp] theorem dequeue_out (rest : List HostEvent) (s : State) :
    (dequeue rest s).out = s.out := rfl

@[simp] theorem dequeue_dinP (rest : List HostEvent) (s : State) :
    (dequeue rest s).dinP = s.dinP := rfl

@[simp] theorem dequeue_dinN (rest : List HostEvent) (s : State) :
    (dequeue rest s).dinN = s.dinN := rfl

@[simp] theorem dequeue_pending (rest : List HostEvent) (s : State) :
    (dequeue rest s).pending = rest := rfl

@[simp] theorem dequeue_illegalSeen (rest : List HostEvent) (s : State) :
    (dequeue rest s).illegalSeen = s.illegalSeen := rfl

@[simp] theorem latchOperands_P (c : Command) (s : State) :
    (latchOperands c s).P = s.P := rfl

@[simp] theorem latchOperands_N (c : Command) (s : State) :
    (latchOperands c s).N = s.N := rfl

@[simp] theorem latchOperands_out (c : Command) (s : State) :
    (latchOperands c s).out = s.out := rfl

@[simp] theorem latchOperands_dinP (c : Command) (s : State) :
    (latchOperands c s).dinP = c.dinP := rfl

@[simp] theorem latchOperands_dinN (c : Command) (s : State) :
    (latchOperands c s).dinN = c.dinN := rfl

@[simp] theorem latchOperands_pending (c : Command) (s : State) :
    (latchOperands c s).pending = s.pending := rfl

@[simp] theorem latchOperands_illegalSeen (c : Command) (s : State) :
    (latchOperands c s).illegalSeen = s.illegalSeen := rfl

@[simp] theorem present_P (e : HostEvent) (s : State) :
    (present e s).P = s.P := rfl

@[simp] theorem present_N (e : HostEvent) (s : State) :
    (present e s).N = s.N := rfl

@[simp] theorem present_out (e : HostEvent) (s : State) :
    (present e s).out = s.out := rfl

@[simp] theorem present_dinP (e : HostEvent) (s : State) :
    (present e s).dinP = s.dinP := rfl

@[simp] theorem present_dinN (e : HostEvent) (s : State) :
    (present e s).dinN = s.dinN := rfl

@[simp] theorem present_pending (e : HostEvent) (s : State) :
    (present e s).pending = e :: s.pending := rfl

@[simp] theorem present_illegalSeen (e : HostEvent) (s : State) :
    (present e s).illegalSeen = s.illegalSeen := rfl

@[simp] theorem reset_P : State.reset.P = 0 := rfl

@[simp] theorem reset_N : State.reset.N = 0 := rfl

@[simp] theorem reset_out : State.reset.out = none := rfl

@[simp] theorem reset_dinP : State.reset.dinP = 0 := rfl

@[simp] theorem reset_dinN : State.reset.dinN = 0 := rfl

@[simp] theorem reset_pending : State.reset.pending = [] := rfl

@[simp] theorem reset_illegalSeen : State.reset.illegalSeen = false := rfl

end Sys2Proof.Machine
end

