-- ==== Sys2Proof/Laws/Ops.lean ====
section
/-! SUPPORT. What the shared operations answer, each said once: `respond`, the illegal-command response, the
reset event, and the inversion of one event and of one step. -/

namespace Sys2Proof.Machine

/-- Everything `respond` can do: it always answers, and only `out` is new. -/
theorem respond_eq_next_iff {r : OutRecord} {s t : State} :
    respond r s = .next t ↔ t = { s with out := some r } := by
  simp only [respond, Host.Outcome.next.injEq]
  exact eq_comm

/-- Everything `raise IllegalCommand` can do. -/
theorem raiseIllegalCommand_eq_next_iff {s t : State} :
    raiseIllegalCommand s = .next t ↔
      t = { s with out := some { ill := true }, illegalSeen := true } :=
  respond_eq_next_iff

/-- A command word is either a command, run by `exec`, or illegal. -/
theorem runCommand_cases (cw : CommandWord) (s : State) :
    (∃ i, decode cw = .ok i ∧ runCommand cw s = exec i s) ∨
      (∃ why, decode cw = .error why ∧ runCommand cw s = raiseIllegalCommand s) := by
  unfold runCommand
  cases h : decode cw with
  | ok i => exact .inl ⟨i, rfl, rfl⟩
  | error why => exact .inr ⟨why, rfl, rfl⟩

/-- With nothing pending a step is an idle interval. -/
theorem step_nothing_pending {s : State} (h : s.pending = []) :
    step s = .next (idleInterval s) := by
  simp only [step, h, serve]

/-- A step takes the first pending event and serves it. -/
theorem step_serves {s : State} {e : HostEvent} {rest : List HostEvent}
    (h : s.pending = e :: rest) : step s = serve e (dequeue rest s) := by
  simp only [step, h]

@[simp] theorem serve_idle (s : State) : serve .idle s = .next (idleInterval s) := rfl

@[simp] theorem serve_reset (s : State) : serve .reset s = .next (applyReset s) := rfl

@[simp] theorem serve_command (c : Command) (s : State) :
    serve (.command c) s = runCommand c.cw (latchOperands c s) := rfl

@[simp] theorem step_present (e : HostEvent) (s : State) : step (present e s) = serve e s := rfl

end Sys2Proof.Machine
end

