-- ==== Sys2Proof/Laws/PerInstr.lean ====
section
/-! SUPPORT. The family `Encoding`: what each command's encoding holds in its four fields. One lemma per
constructor of Instr. -/

namespace Sys2Proof.Laws.Encoding

/-- The four fields of a well-formed command's word read back (30_encoding.md R41, R42, R44): `op` is the
command's code, `alt` and `width` its own or zero, and the reserved bits are zero. -/
def Statement (i : Instr) : Prop :=
  i.wf = true → opField (encode i) = i.opcode ∧ altField (encode i) = i.altBit ∧
    widthField (encode i) = i.widthField ∧ rsvField (encode i) = 0

/-- A word made of three fields in range reads back as those fields. -/
theorem fields_of_ofNat {op alt width : Nat} (hop : op < 8) (halt : alt < 2) (hwidth : width < 128) :
    let cw := BitVec.ofNat 16 (op + 8 * alt + 16 * width)
    opField cw = op ∧ altField cw = alt ∧ widthField cw = width ∧ rsvField cw = 0 := by
  simp only [opField, altField, widthField, rsvField, BitVec.extractLsb'_toNat, BitVec.toNat_ofNat,
    Nat.shiftRight_eq_div_pow]
  omega

theorem nop : Statement .nop := fun _ => fields_of_ofNat (by decide) (by decide) (by decide)

theorem load : Statement .load := fun _ => fields_of_ofNat (by decide) (by decide) (by decide)

theorem norm : Statement .norm := fun _ => fields_of_ofNat (by decide) (by decide) (by decide)

theorem neg : Statement .neg := fun _ => fields_of_ofNat (by decide) (by decide) (by decide)

theorem toint : Statement .toint := fun _ => fields_of_ofNat (by decide) (by decide) (by decide)

theorem rend (alt : Bool) (width : Nat) : Statement (.rend alt width) := fun h =>
  fields_of_ofNat (by change 5 < 8; decide) (Bool.toNat_lt alt)
    (Nat.lt_succ_of_le (of_decide_eq_true h))

theorem fromu : Statement .fromu := fun _ => fields_of_ofNat (by decide) (by decide) (by decide)

theorem froms : Statement .froms := fun _ => fields_of_ofNat (by decide) (by decide) (by decide)

end Sys2Proof.Laws.Encoding
end

