-- ==== Sys2Proof/Laws/Sums.lean ====
section
/-! SUPPORT. The small lemmas of `sumTo`, the one summation of the model. -/

namespace Sys2Proof.Machine

@[simp] theorem sumTo_zero (f : Nat → Int) : sumTo f 0 = 0 := rfl

@[simp] theorem sumTo_succ (f : Nat → Int) (k : Nat) : sumTo f (k + 1) = sumTo f k + f k := rfl

/-- The model's summation is the sum over the positions below `k`. -/
theorem sumTo_eq_sum_range (f : Nat → Int) (k : Nat) :
    sumTo f k = ∑ i ∈ Finset.range k, f i := by
  induction k with
  | zero => rfl
  | succ k ih => rw [sumTo_succ, ih, Finset.sum_range_succ]

/-- Equal terms give equal sums. -/
theorem sumTo_congr {f g : Nat → Int} {k : Nat} (h : ∀ i < k, f i = g i) :
    sumTo f k = sumTo g k := by
  induction k with
  | zero => rfl
  | succ k ih =>
    rw [sumTo_succ, sumTo_succ, ih fun i hi => h i (Nat.lt_succ_of_lt hi), h k (Nat.lt_succ_self k)]

/-- Sums add term by term. -/
theorem sumTo_add (f g : Nat → Int) (k : Nat) :
    sumTo (fun i => f i + g i) k = sumTo f k + sumTo g k := by
  induction k with
  | zero => rfl
  | succ k ih => simp only [sumTo_succ, ih]; omega

/-- A constant factor leaves the sum. -/
theorem sumTo_mul (c : Int) (f : Nat → Int) (k : Nat) :
    sumTo (fun i => c * f i) k = c * sumTo f k := by
  induction k with
  | zero => simp
  | succ k ih => simp only [sumTo_succ, ih, mul_add]

/-- The term of position 0 can be taken out first. -/
theorem sumTo_succ_left (f : Nat → Int) (k : Nat) :
    sumTo f (k + 1) = f 0 + sumTo (fun i => f (i + 1)) k := by
  induction k with
  | zero => simp
  | succ k ih => rw [sumTo_succ, ih, sumTo_succ, add_assoc]

end Sys2Proof.Machine
end

