-- ==== Sys2Proof/Laws/Words.lean ====
section
/-! SUPPORT. The decoding of the seven words without fields, and the step on a command presented next. -/

namespace Sys2Proof.Machine

@[simp] theorem decode_nop : decode 0x0000#16 = .ok .nop := by decide

@[simp] theorem decode_load : decode 0x0001#16 = .ok .load := by decide

@[simp] theorem decode_norm : decode 0x0002#16 = .ok .norm := by decide

@[simp] theorem decode_neg : decode 0x0003#16 = .ok .neg := by decide

@[simp] theorem decode_toint : decode 0x0004#16 = .ok .toint := by decide

@[simp] theorem decode_fromu : decode 0x0006#16 = .ok .fromu := by decide

@[simp] theorem decode_froms : decode 0x0007#16 = .ok .froms := by decide

/-- A legal command presented next is run on the state with its operands on the ports. -/
theorem step_present_legal {cw : CommandWord} {i : Instr} (h : decode cw = .ok i) (a b : Word)
    (s : State) :
    step (present (.command ⟨cw, a, b⟩) s) = exec i { s with dinP := a, dinN := b } := by
  rw [step_present, serve_command, runCommand, h]
  rfl

/-- An illegal word presented next has the illegal-command response. -/
theorem step_present_illegal {cw : CommandWord} {why : Illegal} (h : decode cw = .error why)
    (a b : Word) (s : State) :
    step (present (.command ⟨cw, a, b⟩) s) =
      raiseIllegalCommand { s with dinP := a, dinN := b } := by
  rw [step_present, serve_command, runCommand, h]
  rfl

end Sys2Proof.Machine
end

