-- ==== Sys2Proof/Tests/Slice0.lean ====
section
/-! SUPPORT. Tests of the model's own text. Every expected value is one of 95_test_vectors.md or of a table or
example of spec/, named in the comment before it. The last part gives, for every statement that has hypotheses,
a concrete state and operands that meet them. -/

namespace Sys2Proof.Tests

open Sys2Proof.Machine

/-! ## Helpers -/

/-- A state with the given masks and operand ports, otherwise as after reset. -/
def at4 (p n a b : Word) : State := { State.reset with P := p, N := n, dinP := a, dinN := b }

/-- The registers after an outcome. -/
def regs (o : Host.Outcome State Fault Refusal) : Option (Word × Word) :=
  match o with
  | .next t => some (t.P, t.N)
  | _ => none

/-- The output record after an outcome. -/
def record (o : Host.Outcome State Fault Refusal) : Option OutRecord :=
  match o with
  | .next t => t.out
  | _ => none

/-! ## Well-formedness: the one check refuses -/

theorem test_wf_refuses_width_128 : (Instr.rend false 128).wf = false := by decide

theorem test_wf_accepts_width_127 : (Instr.rend true 127).wf = true := by decide

/-! ## Decoding: words written by their fields `rsv width alt op` (95_test_vectors.md E1 to E24) -/

theorem test_decode_E1 : decode 0b00000_0000000_0_000#16 = .ok .nop := by decide

theorem test_decode_E2 : decode 0b00000_0000000_0_001#16 = .ok .load := by decide

theorem test_decode_E3 : decode 0b00000_0000000_0_010#16 = .ok .norm := by decide

theorem test_decode_E4 : decode 0b00000_0000000_0_011#16 = .ok .neg := by decide

theorem test_decode_E5 : decode 0b00000_0000000_0_100#16 = .ok .toint := by decide

theorem test_decode_E6 : decode 0b00000_0000000_0_101#16 = .ok (.rend false 0) := by decide

theorem test_decode_E7 : decode 0b00000_0000000_0_110#16 = .ok .fromu := by decide

theorem test_decode_E8 : decode 0b00000_0000000_0_111#16 = .ok .froms := by decide

theorem test_decode_E11 : decode 0b00000_0000110_1_101#16 = .ok (.rend true 6) := by decide

theorem test_decode_E12 : decode 0x07F5#16 = .ok (.rend false 127) := by decide

theorem test_decode_E15 : decode 0x000E#16 = .error .strayModifier := by decide

theorem test_decode_E17 : decode 0x0012#16 = .error .strayModifier := by decide

theorem test_decode_E21 : decode 0x0805#16 = .error .reservedBits := by decide

theorem test_decode_E24 : decode 0xFFFF#16 = .error .reservedBits := by decide

theorem test_encode_E13 : encode (.rend true 127) = 0x07FD#16 := by decide

theorem test_decodeTableWord_E10 : decodeTableWord 16 0x0065 = some (.rend false 6) := by decide

/-! ## NOP and LOAD -/

/-- L1. -/
theorem test_nop_L1 : exec .nop (at4 2 1 7 7) = .next { at4 2 1 7 7 with out := some { ill := false } } :=
  rfl

/-- L4, with its `coll`. -/
theorem test_load_L4 :
    regs (exec .load (at4 0 0 6 3)) = some (6, 3) ∧ (at4 6 3 0 0).coll = 2 ∧
      (at4 6 3 0 0).collAny = true := by decide

/-! ## NORM -/

/-- N10. -/
theorem test_norm_N10 :
    regs (exec .norm (at4 0xDEADBEEFCAFEF00D 0x0123456789ABCDEF 0 0)) =
      some (0xDE8CBA8842543000, 0x0102410001010DE2) := by decide

/-- N2 (90_conflicts.md C2): no position collides, so nothing is cleared. -/
theorem test_norm_N2 : regs (exec .norm (at4 2 1 0 0)) = some (2, 1) := by decide

/-! ## NEG -/

/-- G5: the result has the masks exchanged, T is unchanged. -/
theorem test_neg_G5 :
    record (exec .neg (at4 6 3 0 0)) = some { ill := false, resP := some 3, resN := some 6 } ∧
      regs (exec .neg (at4 6 3 0 0)) = some (6, 3) := by decide

/-! ## TOINT -/

/-- T6: the most negative value. -/
theorem test_toint_T6 :
    record (exec .toint (at4 0 0xFFFFFFFFFFFFFFFF 0 0)) =
      some { ill := false, resInt := some 0xFFFFFFEA5495A8384366EC39C340A180 } := by decide

/-- T11: both settings of `COLLIDE_COEFF`. -/
theorem test_toint_T11 :
    signedSum .zero 0xF0F0 0xFF00 = -259200 ∧ signedSum .plusOne 0xF0F0 0xFF00 = 20998440 := by decide

/-- T9 and T2, the passes of the reference loop and its sum. -/
theorem test_referenceLoop_T9 :
    (referenceLoop .plusOne 6 3).passes = 3 ∧ (referenceLoop .plusOne 6 3).sum = 11 ∧
      (referenceLoop .zero 2 1).passes = 2 := by decide

/-! ## REND -/

/-- V3: `0t00+-`. -/
theorem test_rend_V3 :
    record (exec (.rend true 6) (at4 2 1 0 0)) =
      some { ill := false, textLen := some 6,
             text := some [0x30, 0x74, 0x30, 0x30, 0x2B, 0x2D] } := by decide

/-- V14: a collision on top is trimmed, and the zero after the first digit is kept. -/
theorem test_rend_V14 :
    record (exec (.rend false 0) (at4 6 4 0 0)) =
      some { ill := false, textLen := some 2, text := some [0x2B, 0x30] } := by decide

/-! ## FROMU and FROMS -/

/-- F9: 42 trits. -/
theorem test_fromu_F9 :
    regs (exec .fromu (at4 1 1 0xFFFFFFFFFFFFFFFF 5)) = some (0x20100CE96C0, 0x1E42631691A) := by
  decide

/-- F11: the smallest value that needs 42 trits. -/
theorem test_fromu_F11 :
    regs (exec .fromu (at4 0 0 0xFD150E7B3DAFDC32 0)) = some (0x20000000000, 0x1FFFFFFFFFF) := by
  decide

/-- F13: the most negative operand. -/
theorem test_froms_F13 :
    regs (exec .froms (at4 0 0 0x8000000000000000 0)) = some (0xA004641451, 0x15CE2994188) := by
  decide

/-- F8: -100. -/
theorem test_froms_F8 :
    regs (exec .froms (at4 0 0 0xFFFFFFFFFFFFFF9C 0)) = some (0x4, 0x19) := by decide

/-! ## The value of a pair -/

/-- T2 and R13's restriction to normalized pairs. -/
theorem test_val : val 2 1 = some 2 ∧ val 3 1 = none := by decide

/-- T5 (00_scope.md R5). -/
theorem test_maxValue : Config.maxValue = 1716841910146256242328924544640 := by decide

/-! ## Steps: illegal words, reset, the first instruction -/

/-- X1: LOAD with a reserved bit writes nothing. -/
theorem test_step_X1 :
    regs (step (present (.command ⟨0x0801#16, 0, 0⟩) (at4 6 3 0 0))) = some (6, 3) ∧
      record (step (present (.command ⟨0x0801#16, 0, 0⟩) (at4 6 3 0 0))) =
        some { ill := true } := by decide

/-- Z1. -/
theorem test_step_Z1 :
    regs (step (present .reset (at4 0xFFFFFFFFFFFFFFFF 0xFFFFFFFFFFFFFFFF 0 0))) = some (0, 0) := by
  decide

/-- Z3: `REND #` placed as the first instruction after reset. -/
theorem test_step_Z3 :
    record (step (State.reset.withFetchWord 16 0x000D)) =
      some { ill := false, textLen := some 2, text := some [0x30, 0x74] } := by decide

/-! ## The notation of listings (30_encoding.md R47) -/

/-- `FROMS -5 ; note` (44_from_binary.md R103: `din_p = 0xFFFFFFFFFFFFFFFB`). -/
theorem test_assemble_froms :
    assembleLine ['F', 'R', 'O', 'M', 'S', ' ', '-', '5', ' ', ';', ' ', 'n'] =
      some [.issue ⟨0x0007#16, 0xFFFFFFFFFFFFFFFB, 0⟩] := by decide

/-- `LOAD 0b10, 0x1` (program 1, step 1). -/
theorem test_assemble_load :
    assembleLine ['L', 'O', 'A', 'D', ' ', '0', 'b', '1', '0', ',', ' ', '0', 'x', '1'] =
      some [.issue ⟨0x0001#16, 2, 1⟩] := by decide

/-- `REND #, 6` is the word 006D (E11). -/
theorem test_assemble_rend :
    assembleLine ['R', 'E', 'N', 'D', ' ', '#', ',', ' ', '6'] =
      some [.issue ⟨0x006D#16, 0, 0⟩] := by decide

/-! ## Witnesses: each statement with hypotheses has them met -/

theorem witness_DecodeOfEncodeIsIdentity : (Instr.rend true 127).wf = true := by decide

theorem witness_EncodeOfDecodeIsIdentity : decode 0x07FD#16 = .ok (.rend true 127) := by decide

theorem witness_StepRunsDecodedCommand :
    (present (.command ⟨0x0005#16, 0, 0⟩) State.reset).pending = [.command ⟨0x0005#16, 0, 0⟩] ∧
      decode 0x0005#16 = .ok (.rend false 0) ∧ (Instr.rend false 0).wf = true := by decide

/-- The feedback clause, and a collision at each end of the word. -/
theorem witness_LoadKeepsCollisions :
    (2 : Word) = (at4 2 1 0 0).tP ∧ (1 : Word) = (at4 2 1 0 0).tN ∧
      (0x8000000000000001 : Word).getLsbD 63 = true ∧ (0x8000000000000001 : Word).getLsbD 0 = true := by
  decide

theorem witness_NormIsIdempotentAndExact : (at4 2 1 0 0).coll = 0 := by decide

theorem witness_TointAnswersTheSum : (at4 2 1 0 0).normalized = true := by decide

theorem witness_TointOfNormalizedIsTheValue : val (at4 1 2 0 0).P (at4 1 2 0 0).N = some (-2) := by
  decide

/-- Bits 101 and 127 of T6's result are both the sign. -/
theorem witness_TointNeverOverflows :
    (0xFFFFFFEA5495A8384366EC39C340A180 : Int128).getLsbD 101 = true ∧
      (0xFFFFFFEA5495A8384366EC39C340A180 : Int128).getLsbD 127 = true ∧
      (101 ≤ 101 ∧ 101 < 128) ∧ (101 ≤ 127 ∧ 127 < 128) := by decide

/-- A non-negative and a negative operand, at the ends of the range. -/
theorem witness_FromsWritesTheSignedValue :
    0 ≤ (at4 0 0 0x7FFFFFFFFFFFFFFF 0).dinP.toInt ∧ (at4 0 0 0x8000000000000000 0).dinP.toInt < 0 := by
  decide

/-- The largest value is reached. -/
theorem witness_ValuesAreUnique :
    val 0xFFFFFFFFFFFFFFFF 0 = some Config.maxValue ∧ -Config.maxValue ≤ Config.maxValue ∧
      Config.maxValue ≤ Config.maxValue := by decide

/-- One operand of each clause, the last at both ends of its range. -/
theorem witness_EncoderPassesAreLeast :
    (2 ^ 63 < 2 ^ 64 ∧ 2 ^ 63 ≤ 2 ^ 63) ∧
      (18236498188585393202 < 2 ^ 64 ∧ 18236498188585393202 ≤ 18236498188585393202) ∧
      (2 ^ 64 - 1 < 2 ^ 64 ∧ 18236498188585393202 ≤ 2 ^ 64 - 1) := by decide

theorem witness_FlooredDivisionGivesTheSamePair : (at4 0 0 5 0).dinP.msb = false := by decide

theorem witness_RendAnswersTheText : (127 : Nat) ≤ 127 := by decide

theorem witness_RenderedLengths : (0 : Nat) ≤ 127 ∧ (127 : Nat) ≤ 127 := by decide

/-- `+-` and the longer numeral `0+-` of the same value. -/
theorem witness_RenderedDigitsAreTheShortestNumeral :
    val 2 1 = some 2 ∧ digits 2 1 = [.plus, .minus] ∧ numeralValue [.zero, .plus, .minus] = 2 ∧
      (∀ c ∈ [TextChar.zero, .plus, .minus], c ≠ .t) := by decide

theorem witness_EqualMasksRenderNoDigit : (at4 5 5 0 0).P = (at4 5 5 0 0).N ∧ (127 : Nat) ≤ 127 := by
  decide

theorem witness_IllegalCommandChangesNothing : isLegal 0x0801#16 = false ∧ isLegal 0x0012#16 = false := by
  decide

theorem witness_IdleKeepsT : (at4 6 3 0 0).pending = [] := by decide

/-- Positions 0 and 63 of each row of the table. -/
theorem witness_TritTable :
    (0 < 64 ∧ 63 < 64) ∧ trit 1 0 0 = some 1 ∧ trit 0 1 0 = some (-1) ∧ trit 0 0 63 = some 0 ∧
      trit 0x8000000000000000 0x8000000000000000 63 = none := by decide

theorem witness_ContinuousOutputsShowT :
    (at4 6 3 1 1).P = (at4 6 3 0 0).P ∧ (at4 6 3 1 1).N = (at4 6 3 0 0).N ∧ at4 6 3 1 1 ≠ at4 6 3 0 0 := by
  decide

theorem witness_OnlyWritersChangeT :
    (HostEvent.command ⟨0x0801#16, 0, 0⟩).writesT = false ∧ HostEvent.idle.writesT = false ∧
      (HostEvent.command ⟨0x0003#16, 0, 0⟩).writesT = false := by decide

/-- One command for each clause. -/
theorem witness_UnusedInputsAreIgnored :
    (Instr.fromu ≠ .load) ∧
      (Instr.norm ≠ .load ∧ Instr.norm ≠ .fromu ∧ Instr.norm ≠ .froms) := by decide

theorem witness_FrameOfEveryCommand :
    Instr.neg ≠ .load ∧ Instr.neg ≠ .norm ∧ Instr.neg ≠ .fromu ∧ Instr.neg ≠ .froms := by decide

/-- Two different states that the block cannot tell apart. -/
theorem witness_RegistersDetermineTheRun :
    (at4 6 3 1 1).SameBlock (at4 6 3 0 0) ∧ at4 6 3 1 1 ≠ at4 6 3 0 0 :=
  ⟨⟨rfl, rfl, rfl⟩, by decide⟩

/-- A normalized state with a LOAD to come, and the step it takes. -/
theorem witness_StepKeepsNormalized :
    (present (.command ⟨0x0001#16, 2, 1⟩) (at4 4 1 0 0)).staysNormalized = true ∧
      regs (step (present (.command ⟨0x0001#16, 2, 1⟩) (at4 4 1 0 0))) = some (2, 1) := by decide

/-- A state whose output record reports an illegal command is in order, and goes on. -/
theorem witness_StepKeepsOutputsInOrder :
    ({ at4 6 3 0 0 with out := some { ill := true }, illegalSeen := true } : State).OutputsInOrder ∧
      regs (step { at4 6 3 0 0 with out := some { ill := true }, illegalSeen := true }) =
        some (6, 3) := by
  refine ⟨⟨?_, ?_⟩, by decide⟩
  · rintro r ⟨⟩
    constructor <;> simp [OutRecord.resultCount]
  · rintro r ⟨⟩ _
    rfl

/-- Each range at its ends, inside and outside. -/
theorem witness_ListingLinesPresentTheirCommands :
    (127 : Nat) ≤ 127 ∧ 127 < 128 ∧ (2 ^ 64 ≤ 2 ^ 64 ∨ 2 ^ 64 ≤ 0) ∧
      (-(2 ^ 63) - 1 < -(2 ^ 63 : Int) ∨ 2 ^ 63 ≤ -(2 ^ 63) - 1) ∧
      ((2 ^ 63 : Int) < -(2 ^ 63) ∨ 2 ^ 63 ≤ (2 ^ 63 : Int)) := by decide

/-- `0x1F` is a numeral of 31, and `0b10` one of 2. -/
theorem witness_ListingTextIsReadAsItsLine :
    IsNumeral ['0', 'x', '1', 'F'] 31 ∧ IsNumeral ['0', 'b', '1', '0'] 2 := by
  refine ⟨⟨['0', 'x'], ['1', 'F'], 16, [1, 15], by decide, rfl, by decide, ?_, by decide, rfl⟩,
    ⟨['0', 'b'], ['1', '0'], 2, [1, 0], by decide, rfl, by decide, ?_, by decide, rfl⟩⟩
  · exact .cons (.inl rfl) (.cons (.inr (by decide)) .nil)
  · exact .cons (.inl rfl) (.cons (.inl rfl) .nil)

/-- A line in lower case has no mnemonic for its first word. -/
theorem witness_ListingTextIsReadAsItsLine_refusal :
    lexLine ['n', 'o', 'p'] [] = [.word ['n', 'o', 'p']] ∧
      ['n', 'o', 'p'] ∉ ["NOP".toList, "LOAD".toList, "NORM".toList, "NEG".toList, "TOINT".toList,
        "REND".toList, "FROMU".toList, "FROMS".toList, "CLR".toList, "NEGM".toList] := by decide

end Sys2Proof.Tests
end

/-! The family `10_state.md`: the trit of a position (R11) and the four continuous outputs (R21). -/

namespace Sys2Proof.Machine

/-! ## The trit of a position -/

/-- First row of 10_state.md R11. -/
theorem trit_of_posBit_only {p n : Word} {i : Nat} (hi : i < Config.tritCapacity)
    (hp : p.getLsbD i = true) (hn : n.getLsbD i = false) : trit p n i = some 1 := by
  simp only [trit, if_pos hi, hp, hn]

/-- Second row of 10_state.md R11. -/
theorem trit_of_negBit_only {p n : Word} {i : Nat} (hi : i < Config.tritCapacity)
    (hp : p.getLsbD i = false) (hn : n.getLsbD i = true) : trit p n i = some (-1) := by
  simp only [trit, if_pos hi, hp, hn]

/-- Third row of 10_state.md R11. -/
theorem trit_of_no_bit {p n : Word} {i : Nat} (hi : i < Config.tritCapacity)
    (hp : p.getLsbD i = false) (hn : n.getLsbD i = false) : trit p n i = some 0 := by
  simp only [trit, if_pos hi, hp, hn]

/-- Fourth row of 10_state.md R11, the collision. -/
theorem trit_of_both_bits {p n : Word} {i : Nat} (hi : i < Config.tritCapacity)
    (hp : p.getLsbD i = true) (hn : n.getLsbD i = true) : trit p n i = none := by
  simp only [trit, if_pos hi, hp, hn]

/-- Settles O40: the two bits select one row of the table, and the four answers differ. -/
theorem tritTable : Obligations.TritTable := by
  intro p n i hi
  cases hp : p.getLsbD i with
  | false =>
    cases hn : n.getLsbD i with
    | false => simp [trit_of_no_bit hi hp hn]
    | true => simp [trit_of_negBit_only hi hp hn]
  | true =>
    cases hn : n.getLsbD i with
    | false => simp [trit_of_posBit_only hi hp hn]
    | true => simp [trit_of_both_bits hi hp hn]

/-! ## The continuous outputs -/

@[simp] theorem getLsbD_colliding (p n : Word) (i : Nat) :
    (colliding p n).getLsbD i = (p.getLsbD i && n.getLsbD i) :=
  BitVec.getLsbD_and

theorem State.coll_getLsbD_iff (s : State) (i : Nat) :
    s.coll.getLsbD i = true ↔ s.P.getLsbD i = true ∧ s.N.getLsbD i = true := by
  simp [State.coll]

theorem State.collAny_iff_coll_ne_zero (s : State) : s.collAny = true ↔ s.coll ≠ 0 :=
  bne_iff_ne

/-- `coll_any` and the invariant of 10_state.md R12 test the same word for zero. -/
theorem State.collAny_eq_not_normalized (s : State) : s.collAny = !s.normalized := rfl

theorem State.coll_congr {s t : State} (hP : t.P = s.P) (hN : t.N = s.N) : t.coll = s.coll :=
  congrArg₂ colliding hP hN

theorem State.collAny_congr {s t : State} (hP : t.P = s.P) (hN : t.N = s.N) :
    t.collAny = s.collAny :=
  congrArg (· != 0) (State.coll_congr hP hN)

/-- Settles O41: `t_p`, `t_n` and `coll` are read off the two masks, and `coll_any` off `coll`. -/
theorem continuousOutputsShowT : Obligations.ContinuousOutputsShowT := by
  intro s
  have hnorm : s.collAny = true ↔ s.normalized = false := by
    simp [s.collAny_eq_not_normalized]
  exact ⟨rfl, rfl, rfl, fun i _ => s.coll_getLsbD_iff i, s.collAny_iff_coll_ne_zero, hnorm,
    fun t hP hN => ⟨hP, hN, State.coll_congr hP hN, State.collAny_congr hP hN⟩⟩

end Sys2Proof.Machine

/-! The family `40_construct.md`: NOP (R60) and LOAD (R62), as meanings and as steps on their command words. -/

namespace Sys2Proof.Machine

/-! ## The step on a word that decodes -/

/-- A command that the host presents runs as its word decodes, on the operands that come with it. -/
theorem step_present_command_of_decode {cw : CommandWord} {i : Instr} (h : decode cw = .ok i)
    (a b : Word) (s : State) :
    step (present (.command ⟨cw, a, b⟩) s) = exec i (latchOperands ⟨cw, a, b⟩ s) := by
  rw [step_present, serve_command, runCommand, h]

/-! ## NOP -/

theorem decode_nopWord : decode 0x0000#16 = .ok .nop := rfl

/-- NOP writes nothing but the output record. -/
theorem exec_nop (s : State) : exec .nop s = .next { s with out := some { ill := false } } := rfl

/-- Settles O7: the word 0x0000 decodes to NOP, which answers `out.ill = 0` and touches no register. -/
theorem nopOnlyAnswers : Obligations.NopOnlyAnswers := by
  intro s
  refine ⟨exec_nop s, fun a b => ?_⟩
  rw [step_present_command_of_decode decode_nopWord, exec_nop]
  rfl

/-! ## LOAD -/

theorem decode_loadWord : decode 0x0001#16 = .ok .load := rfl

/-- LOAD copies the ports into the registers, whatever these held. -/
theorem exec_load (s : State) :
    exec .load s = .next { s with P := s.dinP, N := s.dinN, out := some { ill := false } } := rfl

/-- Settles O8: the word 0x0001 decodes to LOAD, and the continuous outputs are read off the new masks. -/
theorem loadWritesOperands : Obligations.LoadWritesOperands := by
  intro s
  refine ⟨exec_load s, fun a b => ⟨_, ?_, rfl, rfl, rfl, rfl, State.collAny_iff_coll_ne_zero _⟩⟩
  rw [step_present_command_of_decode decode_loadWord, exec_load]
  rfl

end Sys2Proof.Machine

/-! The family `41_normalize.md`: NORM (R72), as a meaning and as a step on its command word. -/

namespace Sys2Proof.Machine

/-! ## NORM -/

/-- NORM writes the normalized pair and the output record, and nothing else. -/
theorem exec_norm (s : State) :
    exec .norm s = .next { s with
      P := (normalizePair s.P s.N).1, N := (normalizePair s.P s.N).2,
      out := some { ill := false } } := rfl

theorem and_not_and_self (v w : Word) : v &&& ~~~(v &&& w) = v &&& ~~~w := by
  ext i hi
  cases hv : v[i] <;> simp [hv]

/-- 41_normalize.md R72, the equivalent form: each word keeps the bits that the other has clear. -/
theorem normalizePair_eq (p n : Word) : normalizePair p n = (p &&& ~~~n, n &&& ~~~p) := by
  refine Prod.ext (and_not_and_self p n) ?_
  calc n &&& ~~~(p &&& n) = n &&& ~~~(n &&& p) := by rw [BitVec.and_comm p n]
    _ = n &&& ~~~p := and_not_and_self n p

/-- 41_normalize.md R73 (a): a bit kept in one word is clear in the other, so no position survives in both. -/
theorem colliding_normalizePair (p n : Word) :
    colliding (normalizePair p n).1 (normalizePair p n).2 = 0 := by
  rw [normalizePair_eq, colliding]
  ext i hi
  cases hp : p[i] <;> simp [hp]

theorem State.collAny_eq_false_iff_coll_eq_zero (s : State) : s.collAny = false ↔ s.coll = 0 :=
  bne_eq_false_iff_eq

/-- Settles O10: the word 0x0002 decodes to NORM, whose pair is `P & ~c` and `N & ~c` and collides nowhere; the
operands on the ports stay unread. -/
theorem normClearsCollidingBits : Obligations.NormClearsCollidingBits := by
  intro s
  have hcoll := colliding_normalizePair s.P s.N
  refine ⟨_, exec_norm s, rfl, hcoll, (State.collAny_eq_false_iff_coll_eq_zero _).2 hcoll,
    fun a b => ?_⟩
  rw [step_present_legal decode_norm, exec_norm]

end Sys2Proof.Machine

/-! The family `42_negate.md`: NEG (R80), as a meaning and as a step on its command word. -/

namespace Sys2Proof.Machine

/-! ## NEG -/

/-- NEG writes nothing but the output record, whose pair is the masks exchanged. -/
theorem exec_neg (s : State) :
    exec .neg s = .next { s with
      out := some { ill := false, resP := some s.N, resN := some s.P } } := rfl

/-- Settles O13: the word 0x0003 decodes to NEG, whose result is read from `P` and `N` alone; the operands on
the ports stay unread. -/
theorem negAnswersExchangedMasks : Obligations.NegAnswersExchangedMasks := by
  intro s
  refine ⟨exec_neg s, fun a b => ?_⟩
  rw [step_present_legal decode_neg, exec_neg]

end Sys2Proof.Machine

/-! The family `43_to_signed.md`: TOINT (R90), as a meaning and as a step on its command word. -/

namespace Sys2Proof.Machine

/-! ## The sum over the positions -/

/-- 43_to_signed.md R92: `COLLIDE_COEFF` is 0 or 1. -/
theorem CollideCoeff.toInt_eq_zero_or_one (c : CollideCoeff) : c.toInt = 0 ∨ c.toInt = 1 := by
  cases c with
  | zero => exact .inl rfl
  | plusOne => exact .inr rfl

/-- A position's share of the sum, by the three tests of 43_to_signed.md R90, at most one of which succeeds. -/
theorem contribution_mul_eq (c : CollideCoeff) (a b : Bool) (x : Int) :
    contribution c a b * x =
      (if a = true ∧ b = false then x else 0) - (if a = false ∧ b = true then x else 0) +
        (if a = true ∧ b = true then c.toInt * x else 0) := by
  cases a <;> cases b <;> simp [contribution]

/-- The model's sum is the three conditional sums of 43_to_signed.md R90. -/
theorem signedSum_eq_sum_range (c : CollideCoeff) (p n : Word) :
    signedSum c p n = ∑ i ∈ Finset.range 64,
      ((if p.getLsbD i = true ∧ n.getLsbD i = false then 3 ^ i else 0) -
       (if p.getLsbD i = false ∧ n.getLsbD i = true then 3 ^ i else 0) +
       (if p.getLsbD i = true ∧ n.getLsbD i = true then c.toInt * 3 ^ i else 0)) :=
  (sumTo_eq_sum_range _ _).trans (Finset.sum_congr rfl fun _ _ => contribution_mul_eq c _ _ _)

/-! ## The sum of a normalized pair -/

theorem isNormalized_iff_colliding_eq_zero (p n : Word) :
    isNormalized p n = true ↔ colliding p n = 0 :=
  beq_iff_eq

/-- 10_state.md R12: no position of a normalized pair has both bits set. -/
theorem negBit_eq_false_of_posBit {p n : Word} (h : isNormalized p n = true) {i : Nat}
    (hp : p.getLsbD i = true) : n.getLsbD i = false := by
  have hcoll : (colliding p n).getLsbD i = false := by
    rw [(isNormalized_iff_colliding_eq_zero p n).1 h, BitVec.ofNat_eq_ofNat, BitVec.getLsbD_zero]
  simpa [hp] using hcoll

/-- Where the trit is defined, it is what the position contributes, whatever `COLLIDE_COEFF` is. -/
theorem trit_eq_contribution (c : CollideCoeff) {p n : Word} (h : isNormalized p n = true) {i : Nat}
    (hi : i < Config.tritCapacity) :
    trit p n i = some (contribution c (p.getLsbD i) (n.getLsbD i)) := by
  cases hp : p.getLsbD i with
  | true =>
    have hn := negBit_eq_false_of_posBit h hp
    rw [trit_of_posBit_only hi hp hn, hn]
    rfl
  | false =>
    cases hn : n.getLsbD i with
    | true => exact trit_of_negBit_only hi hp hn
    | false => exact trit_of_no_bit hi hp hn

/-- 43_to_signed.md R94 (a): on a normalized pair the sum is the value. -/
theorem val_eq_signedSum (c : CollideCoeff) {p n : Word} (h : isNormalized p n = true) :
    val p n = some (signedSum c p n) := by
  rw [val, if_pos h, signedSum]
  refine congrArg some (sumTo_congr fun i hi => ?_)
  rw [trit_eq_contribution c h hi, Option.getD_some]

/-! ## TOINT -/

/-- TOINT writes nothing but the output record, whose word holds the sum. -/
theorem exec_toint (s : State) :
    exec .toint s = .next { s with out := some {
      ill := false
      resInt := some (BitVec.ofInt 128 (signedSum Config.collideCoeff s.P s.N)) } } := rfl

/-- Settles O16: the sum is read from `P` and `N` alone, with the block's own `COLLIDE_COEFF`; the word 0x0004
decodes to TOINT, and the operands on the ports stay unread. -/
theorem tointAnswersTheSum : Obligations.TointAnswersTheSum := by
  intro s
  refine ⟨signedSum Config.collideCoeff s.P s.N, signedSum_eq_sum_range _ _ _,
    CollideCoeff.toInt_eq_zero_or_one _, val_eq_signedSum _, exec_toint s, fun a b => ?_⟩
  rw [step_present_legal decode_toint, exec_toint]

end Sys2Proof.Machine

/-! The family `44_from_binary.md`: FROMU (R101) and FROMS (R103), through the passes of `enc_u` (R102). -/

namespace Sys2Proof.Machine

/-! ## One bit set, and the value of a mask -/

theorem getLsbD_setBit (v : Word) {i j : Nat} (hj : j < 64) :
    (setBit v i).getLsbD j = (v.getLsbD j || decide (i = j)) := by
  rw [setBit, BitVec.getLsbD_or, BitVec.getLsbD_shiftLeft, BitVec.getLsbD_one]
  congr 1
  simp only [hj, decide_true, Bool.true_and, ← decide_not, ← Bool.decide_and]
  exact decide_eq_decide.2 (by omega)

theorem maskValue_setBit {v : Word} {i : Nat} (hi : i < 64) (hv : v.getLsbD i = false) :
    maskValue (setBit v i) = maskValue v + 3 ^ i := by
  have hterm : ∀ j < Config.tritCapacity,
      (if (setBit v i).getLsbD j then 1 else 0) * (3 : Int) ^ j =
        (if v.getLsbD j then 1 else 0) * 3 ^ j + if i = j then 3 ^ j else 0 := by
    intro j hj
    rw [getLsbD_setBit v hj]
    by_cases hij : i = j
    · subst hij
      simp [hv]
    · simp [hij]
  have hsingle : sumTo (fun j => if i = j then (3 : Int) ^ j else 0) Config.tritCapacity = 3 ^ i := by
    rw [sumTo_eq_sum_range, Finset.sum_ite_eq]
    exact if_pos (Finset.mem_range.2 hi)
  rw [maskValue, sumTo_congr hterm, sumTo_add, hsingle, maskValue]

theorem colliding_comm (p n : Word) : colliding p n = colliding n p := BitVec.and_comm p n

theorem colliding_setBit_left {p n : Word} {i : Nat} (h : colliding p n = 0)
    (hn : n.getLsbD i = false) : colliding (setBit p i) n = 0 := by
  refine BitVec.eq_of_getLsbD_eq fun j hj => ?_
  have hbit := congrArg (BitVec.getLsbD · j) h
  simp only [getLsbD_colliding] at hbit ⊢
  rw [getLsbD_setBit p hj]
  by_cases hij : i = j
  · subst hij
    simp [hn]
  · simpa [hij] using hbit

/-- 10_state.md R13 on a normalized pair: what the positive mask adds less what the negative mask takes away. -/
theorem val_eq_maskValue_sub {p n : Word} (h : isNormalized p n = true) :
    val p n = some (maskValue p - maskValue n) := by
  have hterm : ∀ i < Config.tritCapacity,
      contribution .zero (p.getLsbD i) (n.getLsbD i) * 3 ^ i + (if n.getLsbD i then 1 else 0) * 3 ^ i =
        (if p.getLsbD i then 1 else 0) * 3 ^ i := by
    intro i _
    cases p.getLsbD i <;> cases n.getLsbD i <;> simp [contribution, CollideCoeff.toInt]
  have hsum : signedSum .zero p n + maskValue n = maskValue p := by
    rw [signedSum, maskValue, ← sumTo_add, sumTo_congr hterm, maskValue]
  rw [val_eq_signedSum .zero h, ← hsum, add_sub_cancel_right]

/-! ## A pair built up to a position -/

/-- The pair is normalized, has the value `z` and is clear from position `k` on: 44_from_binary.md R100 with the
bound of R104, and what the loop of R102 keeps at the top of every pass. -/
structure EncodesBelow (k : Nat) (pq : Word × Word) (z : Int) : Prop where
  noCollision : colliding pq.1 pq.2 = 0
  value : maskValue pq.1 - maskValue pq.2 = z
  clear : ∀ i, k ≤ i → pq.1.getLsbD i = false ∧ pq.2.getLsbD i = false

theorem encodesBelow_zero : EncodesBelow 0 (0, 0) 0 where
  noCollision := rfl
  value := sub_self _
  clear _ _ := ⟨BitVec.getLsbD_zero, BitVec.getLsbD_zero⟩

theorem EncodesBelow.mono {j k : Nat} {pq : Word × Word} {z : Int} (h : EncodesBelow j pq z)
    (hjk : j ≤ k) : EncodesBelow k pq z :=
  { h with clear := fun i hi => h.clear i (hjk.trans hi) }

/-- 42_negate.md R81 on such a pair: the masks exchanged have the opposite value. -/
theorem EncodesBelow.swap {k : Nat} {pq : Word × Word} {z : Int} (h : EncodesBelow k pq z) :
    EncodesBelow k pq.swap (-z) where
  noCollision := (colliding_comm pq.2 pq.1).trans h.noCollision
  value := by rw [← h.value, neg_sub, Prod.fst_swap, Prod.snd_swap]
  clear i hi := (h.clear i hi).symm

theorem EncodesBelow.setBit_left {k : Nat} {p n : Word} {z : Int} (h : EncodesBelow k (p, n) z)
    (hk : k < 64) : EncodesBelow (k + 1) (setBit p k, n) (z + 3 ^ k) where
  noCollision := colliding_setBit_left h.noCollision (h.clear k le_rfl).2
  value := by
    rw [maskValue_setBit hk (h.clear k le_rfl).1, ← h.value]
    ring
  clear i hi := by
    obtain ⟨hp, hn⟩ := h.clear i (by omega)
    refine ⟨?_, hn⟩
    by_cases h64 : i < 64
    · rw [getLsbD_setBit p h64, hp, Bool.false_or]
      exact decide_eq_false (by omega)
    · exact BitVec.getLsbD_of_ge _ _ (by omega)

theorem EncodesBelow.setBit_right {k : Nat} {p n : Word} {z : Int} (h : EncodesBelow k (p, n) z)
    (hk : k < 64) : EncodesBelow (k + 1) (p, setBit n k) (z - 3 ^ k) := by
  have hswap := (h.swap.setBit_left hk).swap
  rwa [neg_add, neg_neg, ← sub_eq_add_neg] at hswap

theorem EncodesBelow.val_eq {k : Nat} {p n : Word} {z : Int} (h : EncodesBelow k (p, n) z) :
    val p n = some z := by
  rw [val_eq_maskValue_sub ((isNormalized_iff_colliding_eq_zero p n).2 h.noCollision), h.value]

/-! ## The loop of `enc_u` -/

/-- The pair after a pass of `enc_u` at position `i` with remainder `r` (44_from_binary.md R102). -/
def recordRemainder (i r : Nat) (pq : Word × Word) : Word × Word :=
  if r = 1 then (setBit pq.1 i, pq.2) else if r = 2 then (pq.1, setBit pq.2 i) else pq

/-- The trit that `enc_u` records for the remainder `r` (44_from_binary.md R102). -/
def remainderTrit (r : Nat) : Int := if r = 1 then 1 else if r = 2 then -1 else 0

theorem encodeLoop_zero_number (fuel i : Nat) (pq : Word × Word) : encodeLoop fuel i 0 pq = pq := by
  cases fuel <;> simp [encodeLoop]

/-- One pass of `enc_u`: the trit is recorded, and the loop goes on with the next quotient. -/
theorem encodeLoop_succ {m : Nat} (hm : m ≠ 0) (fuel i : Nat) (pq : Word × Word) :
    encodeLoop (fuel + 1) i m pq =
      encodeLoop fuel (i + 1) (nextQuotient m) (recordRemainder i (m % 3) pq) := by
  rw [encodeLoop, if_neg hm, nextQuotient, recordRemainder]
  by_cases h1 : m % 3 = 1
  · simp [h1]
  · by_cases h2 : m % 3 = 2
    · simp [h2]
    · simp [h1, h2]

theorem eq_three_mul_nextQuotient_add (m : Nat) :
    (m : Int) = 3 * nextQuotient m + remainderTrit (m % 3) := by
  rw [nextQuotient, remainderTrit]
  split_ifs <;> omega

/-- One pass takes the reach of `k + 1` trits to that of `k` (44_from_binary.md R104): a power of 3 is odd, so
the carry still fits. -/
theorem two_mul_nextQuotient_lt {m k : Nat} (h : 2 * m < 3 ^ (k + 1)) :
    2 * nextQuotient m < 3 ^ k := by
  have hodd : 3 ^ k % 2 = 1 := Nat.odd_iff.1 (Odd.pow (by decide))
  rw [pow_succ] at h
  rw [nextQuotient]
  split_ifs <;> omega

theorem EncodesBelow.after_pass {k : Nat} {pq : Word × Word} {z : Int}
    (h : EncodesBelow k pq z) (hk : k < 64) (r : Nat) :
    EncodesBelow (k + 1) (recordRemainder k r pq) (z + remainderTrit r * 3 ^ k) := by
  rw [recordRemainder, remainderTrit]
  split_ifs
  · simpa using h.setBit_left hk
  · simpa [sub_eq_add_neg] using h.setBit_right hk
  · simpa using h.mono k.le_succ

/-- 44_from_binary.md R102: a number within reach of `k` trits ends the loop within `k` passes and adds its
value, shifted to position `i`, to the pair. -/
theorem EncodesBelow.after_loop {k fuel i m : Nat} {pq : Word × Word} {z : Int}
    (h : EncodesBelow i pq z) (hm : 2 * m < 3 ^ k) (hfuel : k ≤ fuel) (hi : i + k ≤ 64) :
    EncodesBelow (i + k) (encodeLoop fuel i m pq) (z + m * 3 ^ i) := by
  induction k generalizing fuel i m pq z with
  | zero =>
    obtain rfl : m = 0 := by omega
    simpa [encodeLoop_zero_number] using h
  | succ k ih =>
    obtain rfl | hm0 := eq_or_ne m 0
    · simpa [encodeLoop_zero_number] using h.mono (Nat.le_add_right i (k + 1))
    · obtain ⟨fuel, rfl⟩ : ∃ f, fuel = f + 1 := ⟨fuel - 1, by omega⟩
      have hnext := ih (h.after_pass (by omega) (m % 3)) (two_mul_nextQuotient_lt hm)
        (Nat.le_of_succ_le_succ hfuel) (by omega)
      have hvalue : z + m * 3 ^ i =
          z + remainderTrit (m % 3) * 3 ^ i + nextQuotient m * 3 ^ (i + 1) := by
        rw [eq_three_mul_nextQuotient_add m]
        ring
      rw [encodeLoop_succ hm0, hvalue, ← Nat.succ_add_eq_add_succ]
      exact hnext

theorem encodesBelow_encodeUnsigned {m k : Nat} (hm : 2 * m < 3 ^ k) (hk : k ≤ 64) :
    EncodesBelow k (encodeUnsigned m) m := by
  have hloop := encodesBelow_zero.after_loop hm hk (by omega)
  rwa [zero_add, zero_add, pow_zero, mul_one] at hloop

theorem encodeSigned_of_nonneg {z : Int} (hz : 0 ≤ z) : encodeSigned z = encodeUnsigned z.toNat :=
  if_pos hz

theorem encodeSigned_of_neg {z : Int} (hz : z < 0) :
    encodeSigned z = (encodeUnsigned (-z).toNat).swap :=
  if_neg (not_le.2 hz)

theorem encodesBelow_encodeSigned {z : Int} {k : Nat} (hz : 2 * z.natAbs < 3 ^ k) (hk : k ≤ 64) :
    EncodesBelow k (encodeSigned z) z := by
  obtain hneg | hnonneg := lt_or_ge z 0
  · have hmag := (encodesBelow_encodeUnsigned (m := (-z).toNat) (by omega) hk).swap
    rwa [Int.toNat_of_nonneg (by omega), neg_neg, ← encodeSigned_of_neg hneg] at hmag
  · have hmag := encodesBelow_encodeUnsigned (m := z.toNat) (by omega) hk
    rwa [Int.toNat_of_nonneg hnonneg, ← encodeSigned_of_nonneg hnonneg] at hmag

/-- 44_from_binary.md R104 for FROMU: 42 trits reach every unsigned operand. -/
theorem encodesBelow_encodeUnsigned_word (d : Word) :
    EncodesBelow 42 (encodeUnsigned d.toNat) d.toNat :=
  encodesBelow_encodeUnsigned (by omega) (by decide)

/-- 44_from_binary.md R104 for FROMS: 41 trits reach every signed operand. -/
theorem encodesBelow_encodeSigned_word (d : Word) : EncodesBelow 41 (encodeSigned d.toInt) d.toInt := by
  have hle := BitVec.le_toInt d
  have hlt := BitVec.toInt_lt (x := d)
  exact encodesBelow_encodeSigned (by omega) (by decide)

/-! ## FROMU and FROMS -/

/-- FROMU writes the pair and the output record, and nothing else. -/
theorem exec_fromu (s : State) :
    exec .fromu s = .next { s with
      P := (encodeUnsigned s.dinP.toNat).1, N := (encodeUnsigned s.dinP.toNat).2,
      out := some { ill := false } } := rfl

/-- FROMS writes the pair and the output record, and nothing else. -/
theorem exec_froms (s : State) :
    exec .froms s = .next { s with
      P := (encodeSigned s.dinP.toInt).1, N := (encodeSigned s.dinP.toInt).2,
      out := some { ill := false } } := rfl

/-- Settles O22: the pair is that of `enc_u`, which 42 passes complete; the word 0x0006 decodes to FROMU, which
reads `din_p` alone. -/
theorem fromuWritesTheUnsignedValue : Obligations.FromuWritesTheUnsignedValue := by
  intro s
  have henc := encodesBelow_encodeUnsigned_word s.dinP
  refine ⟨_, exec_fromu s, rfl, rfl, henc.noCollision,
    (State.collAny_eq_false_iff_coll_eq_zero _).2 henc.noCollision, henc.val_eq, henc.clear,
    fun q m b => ?_⟩
  rw [step_present_legal decode_fromu, exec_fromu]

/-- Settles O23: a negative operand exchanges the pair of its magnitude, and 41 passes complete either; the word
0x0007 decodes to FROMS, which reads `din_p` alone. -/
theorem fromsWritesTheSignedValue : Obligations.FromsWritesTheSignedValue := by
  intro s
  have henc := encodesBelow_encodeSigned_word s.dinP
  refine ⟨_, exec_froms s, rfl, fun hnonneg => encodeSigned_of_nonneg hnonneg,
    fun hneg => congrArg Prod.swap (encodeSigned_of_neg hneg), henc.noCollision,
    (State.collAny_eq_false_iff_coll_eq_zero _).2 henc.noCollision, henc.val_eq, henc.clear,
    fun q m b => ?_⟩
  rw [step_present_legal decode_froms, exec_froms]

end Sys2Proof.Machine

/-! The family `45_render.md`: REND (R110), as a meaning and as a step on its command words. -/

namespace Sys2Proof.Machine

/-! ## The characters and the digits -/

/-- `c[k]` of 45_render.md R110: the character of position `63 - k`. -/
def positionChar (p n : Word) (k : Nat) : TextChar :=
  tritChar (p.getLsbD (63 - k)) (n.getLsbD (63 - k))

theorem positionChars_eq_map (p n : Word) :
    positionChars p n = (List.range 64).map (positionChar p n) := rfl

@[simp] theorem length_positionChars (p n : Word) : (positionChars p n).length = 64 := by
  rw [positionChars_eq_map, List.length_map, List.length_range]

@[simp] theorem getElem_positionChars {p n : Word} {k : Nat} (hk : k < (positionChars p n).length) :
    (positionChars p n)[k] = positionChar p n k := by
  simp only [positionChars_eq_map, List.getElem_map, List.getElem_range]

/-- The two tests of 45_render.md R111. -/
theorem tritChar_eq_ite (a b : Bool) :
    tritChar a b =
      if a = true ∧ b = false then .plus else if a = false ∧ b = true then .minus else .zero := by
  cases a <;> cases b <;> rfl

/-- `z` of 45_render.md R110: how many characters stand before the first that is not `'0'`. -/
def leadingZeroChars (p n : Word) : Nat := (positionChars p n).findIdx (!· == .zero)

theorem leadingZeroChars_le (p n : Word) : leadingZeroChars p n ≤ 64 :=
  List.findIdx_le_length.trans_eq (length_positionChars p n)

theorem positionChar_eq_zero_of_lt {p n : Word} {k : Nat} (hk : k < leadingZeroChars p n) :
    positionChar p n k = .zero := by
  simpa using List.not_of_lt_findIdx hk

theorem positionChar_leadingZeroChars_ne_zero {p n : Word} (h : leadingZeroChars p n < 64) :
    positionChar p n (leadingZeroChars p n) ≠ .zero := by
  have hlt : leadingZeroChars p n < (positionChars p n).length := by
    rwa [length_positionChars]
  have hkept : (!(positionChars p n)[leadingZeroChars p n] == .zero) = true :=
    List.findIdx_getElem (w := hlt)
  simpa using hkept

/-- 45_render.md R112: the digits are the characters `c[z] .. c[63]`. -/
theorem digits_eq_map_range (p n : Word) :
    digits p n = (List.range (64 - leadingZeroChars p n)).map
      fun j => positionChar p n (leadingZeroChars p n + j) := by
  have hdrop : digits p n = (positionChars p n).drop (leadingZeroChars p n) :=
    List.dropWhile_eq_drop_findIdx_not
  rw [hdrop]
  exact List.ext_getElem (by simp) fun k _ _ => by simp

theorem length_digits (p n : Word) : (digits p n).length = 64 - leadingZeroChars p n := by
  rw [digits_eq_map_range, List.length_map, List.length_range]

/-! ## The text -/

theorem length_radixMark_le (alt : Bool) : (radixMark alt).length ≤ 2 := by cases alt <;> decide

/-- 45_render.md R110: the mark, the padding of R114 and the characters `c[z] .. c[63]`. -/
theorem renderText_eq (alt : Bool) (width : Nat) (p n : Word) :
    renderText alt width p n = radixMark alt ++
      List.replicate (padCount width ((radixMark alt).length + (64 - leadingZeroChars p n))) .zero ++
      (List.range (64 - leadingZeroChars p n)).map
        fun j => positionChar p n (leadingZeroChars p n + j) := by
  rw [renderText, length_digits, digits_eq_map_range]

/-- 45_render.md R116: the length of every text fits the 7 bits of `text_len`. -/
theorem length_renderText_le {alt : Bool} {width : Nat} (hw : width ≤ 127) (p n : Word) :
    (renderText alt width p n).length ≤ 127 := by
  have hmark := length_radixMark_le alt
  simp only [renderText_eq, padCount, List.length_append, List.length_replicate, List.length_map,
    List.length_range]
  split_ifs <;> omega

/-! ## REND -/

/-- The fields of the word are REND's code, its `alt` and its `width`. -/
theorem decode_rend (alt : Bool) {width : Nat} (hw : width ≤ 127) :
    decode (BitVec.ofNat 16 (0x0005 + 8 * alt.toNat + 16 * width)) = .ok (.rend alt width) := by
  obtain ⟨hop, halt, hwidth, hrsv⟩ :=
    Laws.Encoding.fields_of_ofNat (op := 5) (by decide) alt.toNat_lt (Nat.lt_succ_of_le hw)
  rw [decode, hop, halt, hwidth, hrsv]
  cases alt <;> rfl

/-- REND writes nothing but the output record, which holds the text's length and its codes. -/
theorem exec_rend (alt : Bool) (width : Nat) (s : State) :
    exec (.rend alt width) s = .next { s with out := some {
      ill := false
      textLen := some (BitVec.ofNat 7 (renderText alt width s.P s.N).length)
      text := some ((renderText alt width s.P s.N).map TextChar.code) } } := rfl

/-- Settles O29: the digits are the characters from the first that is not `'0'` on, and the text is read from
`P` and `N` alone; the operands on the ports stay unread. -/
theorem rendAnswersTheText : Obligations.RendAnswersTheText := by
  intro s alt width hw
  have hlen := length_renderText_le (alt := alt) hw s.P s.N
  refine ⟨leadingZeroChars s.P s.N, positionChar s.P s.N, radixMark alt,
    renderText alt width s.P s.N, TextChar.code, rfl, rfl, rfl, rfl,
    fun k _ => tritChar_eq_ite _ _, leadingZeroChars_le _ _,
    fun k hk => positionChar_eq_zero_of_lt hk, positionChar_leadingZeroChars_ne_zero,
    rfl, renderText_eq alt width _ _, exec_rend alt width s,
    (BitVec.toNat_ofNat _ _).trans (Nat.mod_eq_of_lt (Nat.lt_succ_of_le hlen)), fun a b => ?_⟩
  rw [step_present_legal (decode_rend alt hw), exec_rend]

end Sys2Proof.Machine

/-! The family `60_exceptions.md`: every command completes (R130), and the illegal-command response leaves no
trace on the block (R132). -/

namespace Sys2Proof.Machine

/-! ## What a command can do -/

/-- Everything a command can do: it writes T and an output record with `out.ill = 0`, both fixed by T and the
ports alone (60_exceptions.md R130, 10_state.md R23). -/
theorem exec_determined_by_T_and_ports (i : Instr) (s : State) :
    ∃ (p n : Word) (r : OutRecord), r.ill = false ∧
      ∀ t : State, t.P = s.P → t.N = s.N → t.dinP = s.dinP → t.dinN = s.dinN →
        exec i t = .next { t with P := p, N := n, out := some r } := by
  cases i with
  | nop => exact ⟨s.P, s.N, _, rfl, fun t hP hN _ _ => by rw [exec_nop, ← hP, ← hN]⟩
  | load => exact ⟨_, _, _, rfl, fun t _ _ hp hn => by rw [exec_load, hp, hn]⟩
  | norm => exact ⟨_, _, _, rfl, fun t hP hN _ _ => by rw [exec_norm, hP, hN]⟩
  | neg => exact ⟨_, _, _, rfl, fun t hP hN _ _ => by rw [exec_neg, hP, hN]⟩
  | toint => exact ⟨_, _, _, rfl, fun t hP hN _ _ => by rw [exec_toint, hP, hN]⟩
  | rend alt width => exact ⟨_, _, _, rfl, fun t hP hN _ _ => by rw [exec_rend, hP, hN]⟩
  | fromu => exact ⟨_, _, _, rfl, fun t _ _ hp _ => by rw [exec_fromu, hp]⟩
  | froms => exact ⟨_, _, _, rfl, fun t _ _ hp _ => by rw [exec_froms, hp]⟩

/-- Settles O36: whatever the command writes, its record has `ill = 0`. -/
theorem everyCommandCompletes : Obligations.EveryCommandCompletes := by
  intro i s
  obtain ⟨p, n, r, hill, hexec⟩ := exec_determined_by_T_and_ports i s
  exact ⟨_, r, hexec s rfl rfl rfl rfl, rfl, hill⟩

/-! ## States that the block cannot tell apart -/

/-- Both outcomes are next states that the block cannot tell apart, with the same output record
(10_state.md R23). -/
def AnswersAlike (o o' : Host.Outcome State Fault Refusal) : Prop :=
  ∃ t u : State, o = .next t ∧ o' = .next u ∧ t.SameBlock u ∧ t.out = u.out

/-- A command reads no more of the state than T and the ports. -/
theorem exec_answersAlike (i : Instr) {s t : State} (h : s.SameBlock t) (hp : s.dinP = t.dinP)
    (hn : s.dinN = t.dinN) : AnswersAlike (exec i s) (exec i t) := by
  obtain ⟨p, n, r, -, hexec⟩ := exec_determined_by_T_and_ports i t
  exact ⟨_, _, hexec s h.P h.N hp hn, hexec t rfl rfl rfl rfl, ⟨rfl, rfl, h.pending⟩, rfl⟩

theorem raiseIllegalCommand_answersAlike {s t : State} (h : s.SameBlock t) :
    AnswersAlike (raiseIllegalCommand s) (raiseIllegalCommand t) :=
  ⟨_, _, rfl, rfl, ⟨h.P, h.N, h.pending⟩, rfl⟩

theorem runCommand_answersAlike (cw : CommandWord) {s t : State} (h : s.SameBlock t)
    (hp : s.dinP = t.dinP) (hn : s.dinN = t.dinN) :
    AnswersAlike (runCommand cw s) (runCommand cw t) := by
  cases hcw : decode cw with
  | ok i => simpa only [runCommand, hcw] using exec_answersAlike i h hp hn
  | error why => simpa only [runCommand, hcw] using raiseIllegalCommand_answersAlike h

/-- What an event does depends on T and on what it brings along itself: the operands of a command replace those
left on the ports, and nothing reads the earlier record or the mark. -/
theorem serve_answersAlike (e : HostEvent) {s t : State} (h : s.SameBlock t) :
    AnswersAlike (serve e s) (serve e t) := by
  cases e with
  | command c => exact runCommand_answersAlike c.cw ⟨h.P, h.N, h.pending⟩ rfl rfl
  | idle => exact ⟨_, _, rfl, rfl, ⟨h.P, h.N, h.pending⟩, rfl⟩
  | reset => exact ⟨_, _, rfl, rfl, ⟨rfl, rfl, h.pending⟩, rfl⟩

/-! ## The illegal-command response -/

theorem isLegal_eq_false_iff {cw : CommandWord} :
    isLegal cw = false ↔ ∃ why, decode cw = .error why := by
  cases h : decode cw <;> simp [isLegal, h]

/-- Settles O34: the response writes the record, the ports and the mark, so the block cannot tell its state from
the one before it, and every event does the same on both. -/
theorem illegalCommandChangesNothing : Obligations.IllegalCommandChangesNothing := by
  intro s cw a b hcw
  obtain ⟨why, hwhy⟩ := isLegal_eq_false_iff.1 hcw
  refine ⟨?_, fun e => ?_⟩
  · rw [step_present_illegal hwhy, raiseIllegalCommand_eq_next_iff]
  · obtain ⟨t, u, ht, hu, hblock, hout⟩ := serve_answersAlike e
      (s := { s with dinP := a, dinN := b, out := some { ill := true }, illegalSeen := true })
      (t := s) ⟨rfl, rfl, rfl⟩
    exact ⟨t, u, ht, hu, hblock.P, hblock.N, hout, hblock.pending⟩

end Sys2Proof.Machine

/-! The family `70_reset_and_hazards.md`: the reset event (R150) and the state after reset (R152). -/

namespace Sys2Proof.Machine

/-- Two clear masks drive every continuous output to 0 (70_reset_and_hazards.md R152). -/
theorem State.outputs_zero_of_masks_zero {s : State} (hP : s.P = 0) (hN : s.N = 0) :
    s.tP = 0 ∧ s.tN = 0 ∧ s.coll = 0 ∧ s.collAny = false := by
  have hcoll : s.coll = 0 := (congrArg₂ colliding hP hN).trans encodesBelow_zero.noCollision
  exact ⟨hP, hN, hcoll, s.collAny_eq_false_iff_coll_eq_zero.2 hcoll⟩

/-- The reset event on the host's list is taken off it and applied. -/
theorem step_present_reset (s : State) : step (present .reset s) = .next (applyReset s) := by
  rw [step_present, serve_reset]

/-- Settles O39: the reset event clears the masks and the record and copies every other field; clear masks show
0 on every output and encode 0. -/
theorem resetClearsT : Obligations.ResetClearsT := by
  refine ⟨fun s => ⟨applyReset s, step_present_reset s, rfl,
    State.outputs_zero_of_masks_zero (applyReset_P s) (applyReset_N s)⟩,
    reset_P, reset_N, reset_out, ?_⟩
  obtain ⟨htP, htN, hcoll, hany⟩ := State.outputs_zero_of_masks_zero reset_P reset_N
  exact ⟨htP, htN, hcoll, hany, encodesBelow_zero.val_eq⟩

end Sys2Proof.Machine

/-! Encoding and decoding (30_encoding.md R41 to R46): the fields of a word, which words are legal,
and the step on a word that decodes. -/

namespace Sys2Proof.Machine

/-! ## The word of a command -/

/-- The fields of every well-formed command's word read back. -/
theorem fields_encode (i : Instr) : Laws.Encoding.Statement i := by
  cases i with
  | nop => exact Laws.Encoding.nop
  | load => exact Laws.Encoding.load
  | norm => exact Laws.Encoding.norm
  | neg => exact Laws.Encoding.neg
  | toint => exact Laws.Encoding.toint
  | rend alt width => exact Laws.Encoding.rend alt width
  | fromu => exact Laws.Encoding.fromu
  | froms => exact Laws.Encoding.froms

/-- Settles O1: the four fields read back, and they select the command. -/
theorem decodeOfEncodeIsIdentity : Obligations.DecodeOfEncodeIsIdentity := by
  intro i hwf
  obtain ⟨hop, halt, hwidth, hrsv⟩ := fields_encode i hwf
  rw [decode, hop, halt, hwidth, hrsv]
  cases i with
  | rend alt width => cases alt <;> rfl
  | nop | load | norm | neg | toint | fromu | froms => rfl

/-! ## The fields of a word -/

theorem opField_lt (cw : CommandWord) : opField cw < 8 := BitVec.isLt _

theorem altField_lt (cw : CommandWord) : altField cw < 2 := BitVec.isLt _

theorem widthField_lt (cw : CommandWord) : widthField cw < 128 := BitVec.isLt _

/-- 30_encoding.md R41: the four fields hold every bit of the word. -/
theorem toNat_eq_fields (cw : CommandWord) :
    cw.toNat = opField cw + 8 * altField cw + 16 * widthField cw + 2048 * rsvField cw := by
  have hlt := cw.isLt
  simp only [opField, altField, widthField, rsvField, BitVec.extractLsb'_toNat,
    Nat.shiftRight_eq_div_pow]
  omega

/-- The two tests of 30_encoding.md R46 both pass. -/
def FieldsLegal (cw : CommandWord) : Prop :=
  rsvField cw = 0 ∧ (opField cw = 5 ∨ (altField cw = 0 ∧ widthField cw = 0))

/-- Everything the decoder accepts, and as which command (30_encoding.md R46). -/
theorem decode_eq_ok_iff {cw : CommandWord} {i : Instr} :
    decode cw = .ok i ↔
      FieldsLegal cw ∧ commandOf (opField cw) (altField cw == 1) (widthField cw) = i := by
  rw [decode, FieldsLegal]
  by_cases hrsv : rsvField cw = 0
  · by_cases hop : opField cw = 5
    · simp [hrsv, hop]
    · by_cases hmod : altField cw = 0 ∧ widthField cw = 0
      · simp [hrsv, hmod.1, hmod.2]
      · have hstray : altField cw ≠ 0 ∨ widthField cw ≠ 0 := not_and_or.1 hmod
        simp [hrsv, hop, hmod, hstray]
  · simp [hrsv]

theorem isLegal_iff_exists_decode {cw : CommandWord} :
    isLegal cw = true ↔ ∃ i, decode cw = .ok i := by
  cases h : decode cw <;> simp [isLegal, h]

theorem isLegal_iff_fieldsLegal {cw : CommandWord} : isLegal cw = true ↔ FieldsLegal cw := by
  simp [isLegal_iff_exists_decode, decode_eq_ok_iff]

theorem wf_rend_iff {alt : Bool} {width : Nat} : (Instr.rend alt width).wf = true ↔ width ≤ 127 :=
  decide_eq_true_iff

/-- The command that legal fields select is well-formed and has those fields (30_encoding.md R43,
R44). -/
theorem commandOf_fields {op alt width : Nat} (hop : op < 8) (halt : alt < 2) (hwidth : width < 128)
    (hlegal : op = 5 ∨ (alt = 0 ∧ width = 0)) :
    (commandOf op (alt == 1) width).wf = true ∧ (commandOf op (alt == 1) width).opcode = op ∧
      (commandOf op (alt == 1) width).altBit = alt ∧
      (commandOf op (alt == 1) width).widthField = width := by
  obtain rfl | ⟨rfl, rfl⟩ := hlegal
  · have hbit : (alt == 1).toNat = alt := by interval_cases alt <;> rfl
    exact ⟨wf_rend_iff.2 (Nat.le_of_lt_succ hwidth), rfl, hbit, rfl⟩
  · interval_cases op <;> decide

/-- Settles O2: the fields of a legal word are those of the command it selects, and they make up the
word. -/
theorem encodeOfDecodeIsIdentity : Obligations.EncodeOfDecodeIsIdentity := by
  intro cw i hdec
  obtain ⟨⟨hrsv, hlegal⟩, rfl⟩ := decode_eq_ok_iff.1 hdec
  obtain ⟨hwf, hop, halt, hwidth⟩ :=
    commandOf_fields (opField_lt cw) (altField_lt cw) (widthField_lt cw) hlegal
  refine ⟨hwf, ?_⟩
  have hcw := toNat_eq_fields cw
  rw [hrsv, mul_zero, add_zero] at hcw
  rw [encode, hop, halt, hwidth, ← hcw, BitVec.ofNat_toNat, BitVec.setWidth_eq]

/-! ## The legal words -/

/-- The mask `0xF807` keeps `rsv` and `op` (30_encoding.md R45). -/
theorem and_mask_eq_iff (cw : CommandWord) :
    cw &&& 0xF807#16 = 0x0005#16 ↔ rsvField cw = 0 ∧ opField cw = 5 := by
  have hrsv : rsvField cw = 0 ↔ cw.extractLsb' 11 5 = 0#5 := BitVec.toNat_inj (y := 0#5)
  have hop : opField cw = 5 ↔ cw.extractLsb' 0 3 = 5#3 := BitVec.toNat_inj (y := 5#3)
  rw [hrsv, hop]
  simp only [BitVec.eq_of_getLsbD_eq_iff, Nat.forall_lt_succ_right]
  simp [and_comm, and_assoc]

theorem fields_eq_op_iff (cw : CommandWord) {op : Nat} (hop : op < 8) :
    cw = BitVec.ofNat 16 op ↔
      rsvField cw = 0 ∧ altField cw = 0 ∧ widthField cw = 0 ∧ opField cw = op := by
  have hcw := toNat_eq_fields cw
  have h1 := opField_lt cw
  rw [← BitVec.toNat_inj, BitVec.toNat_ofNat]
  omega

/-- Settles O3: match and mask test the same fields. -/
theorem legalWordsByFieldsAndByMask : Obligations.LegalWordsByFieldsAndByMask := by
  intro cw
  refine ⟨isLegal_iff_fieldsLegal, isLegal_iff_fieldsLegal.trans ?_⟩
  rw [and_mask_eq_iff, FieldsLegal]
  constructor
  · rintro ⟨hrsv, hop | ⟨halt, hwidth⟩⟩
    · exact .inl ⟨hrsv, hop⟩
    · by_cases hop : opField cw = 5
      · exact .inl ⟨hrsv, hop⟩
      · exact .inr ⟨opField cw, opField_lt cw, hop,
          (fields_eq_op_iff cw (opField_lt cw)).2 ⟨hrsv, halt, hwidth, rfl⟩⟩
  · rintro (⟨hrsv, hop⟩ | ⟨op, hlt, -, hcw⟩)
    · exact ⟨hrsv, .inl hop⟩
    · obtain ⟨hrsv, halt, hwidth, -⟩ := (fields_eq_op_iff cw hlt).1 hcw
      exact ⟨hrsv, .inr ⟨halt, hwidth⟩⟩

/-- REND with every width that the field holds (30_encoding.md R42). -/
def rendCommands (alt : Bool) : List Instr := (List.range 128).map (.rend alt)

theorem nodup_rendCommands (alt : Bool) : (rendCommands alt).Nodup :=
  List.nodup_range.map fun _ _ h => (Instr.rend.inj h).2

theorem disjoint_rendCommands : (rendCommands false).Disjoint (rendCommands true) := by
  simp [rendCommands, List.disjoint_left]

/-- 30_encoding.md R44: the seven commands without fields. -/
def fieldlessCommands : List Instr := [.nop, .load, .norm, .neg, .toint, .fromu, .froms]

/-- 30_encoding.md R45: every command that fits a command word. -/
def wellFormedCommands : List Instr :=
  fieldlessCommands ++ (rendCommands false ++ rendCommands true)

theorem mem_wellFormedCommands_iff {i : Instr} : i ∈ wellFormedCommands ↔ i.wf = true := by
  cases i with
  | rend alt width =>
    rw [wf_rend_iff, ← Nat.lt_succ_iff]
    cases alt <;> simp [wellFormedCommands, fieldlessCommands, rendCommands]
  | nop | load | norm | neg | toint | fromu | froms =>
    simp [wellFormedCommands, fieldlessCommands, Instr.wf]

theorem nodup_wellFormedCommands : wellFormedCommands.Nodup := by
  refine List.Nodup.append (by decide)
    ((nodup_rendCommands false).append (nodup_rendCommands true) disjoint_rendCommands) ?_
  simp [fieldlessCommands, rendCommands, List.disjoint_left]

/-- Two well-formed commands with the same word are the same. -/
theorem nodup_map_encode : (wellFormedCommands.map encode).Nodup := by
  refine nodup_wellFormedCommands.map_on fun i hi j hj heq => ?_
  have hi := decodeOfEncodeIsIdentity i (mem_wellFormedCommands_iff.1 hi)
  have hj := decodeOfEncodeIsIdentity j (mem_wellFormedCommands_iff.1 hj)
  rw [heq, hj] at hi
  exact (Except.ok.inj hi).symm

/-- Settles O4: the legal words are the words of the 7 + 2 * 128 well-formed commands. -/
theorem legalWordsAre263 : Obligations.LegalWordsAre263 := by
  refine ⟨wellFormedCommands.map encode, nodup_map_encode, ?_, fun cw => ?_⟩
  · simp [wellFormedCommands, fieldlessCommands, rendCommands]
  · rw [isLegal_iff_exists_decode, List.mem_map]
    constructor
    · rintro ⟨i, hdec⟩
      obtain ⟨hwf, hcw⟩ := encodeOfDecodeIsIdentity cw i hdec
      exact ⟨i, mem_wellFormedCommands_iff.2 hwf, hcw⟩
    · rintro ⟨i, hi, rfl⟩
      exact ⟨i, decodeOfEncodeIsIdentity i (mem_wellFormedCommands_iff.1 hi)⟩

/-- Settles O5: one word of each command, REND's from its two fields, and one word for each failing
test. -/
theorem decodedWordsWrittenOut : Obligations.DecodedWordsWrittenOut :=
  ⟨decode_nop, decode_load, decode_norm, decode_neg, decode_toint, by decide, decode_fromu,
    decode_froms, by decide, by decide⟩

/-- Settles O6: the event is taken, its operands stand on the ports, and its word selects the
command. -/
theorem stepRunsDecodedCommand : Obligations.StepRunsDecodedCommand := by
  intro s c rest i hpending hdec _
  rw [step_serves hpending, serve_command, runCommand, hdec]
  rfl

end Sys2Proof.Machine

/-! LOAD, NORM and NEG on every pair of words (40_construct.md R63, 41_normalize.md R70 to R73,
42_negate.md R81), and the pseudo-instructions built from them (30_encoding.md R48). -/

namespace Sys2Proof.Machine

/-! ## Collisions, position by position -/

theorem trit_eq_none_iff {p n : Word} {i : Nat} (hi : i < 64) :
    trit p n i = none ↔ p.getLsbD i = true ∧ n.getLsbD i = true := by
  obtain ⟨-, -, -, hnone⟩ := tritTable p n i hi
  exact hnone

theorem isNormalized_eq_false_iff {p n : Word} :
    isNormalized p n = false ↔ ∃ i, i < 64 ∧ p.getLsbD i = true ∧ n.getLsbD i = true := by
  rw [← Bool.not_eq_true, isNormalized_iff_colliding_eq_zero, BitVec.eq_of_getLsbD_eq_iff]
  simp

theorem isNormalized_comm (p n : Word) : isNormalized p n = isNormalized n p :=
  congrArg (· == 0) (colliding_comm p n)

theorem getLsbD_and_not (v w : Word) (i : Nat) :
    (v &&& ~~~w).getLsbD i = (v.getLsbD i && !w.getLsbD i) := by
  by_cases hi : i < 64
  · simp [hi]
  · simp [BitVec.getLsbD_of_ge v i (not_lt.1 hi)]

/-! ## LOAD -/

/-- Settles O9: LOAD copies its operands bit for bit, so their common bits are the collisions of T.
-/
theorem loadKeepsCollisions : Obligations.LoadKeepsCollisions := by
  intro s a b
  refine ⟨{ s with P := a, N := b, dinP := a, dinN := b, out := some { ill := false } }, ?_,
    isNormalized_eq_false_iff, fun i hi => trit_eq_none_iff hi, fun ha hb => ⟨ha, hb⟩⟩
  rw [step_present_legal decode_load, exec_load]

/-! ## NORM -/

theorem normalizePair_of_colliding_eq_zero {p n : Word} (h : colliding p n = 0) :
    normalizePair p n = (p, n) := by
  simp only [normalizePair, h, BitVec.ofNat_eq_ofNat, BitVec.not_zero, BitVec.and_allOnes]

theorem isNormalized_normalizePair (p n : Word) :
    isNormalized (normalizePair p n).1 (normalizePair p n).2 = true :=
  (isNormalized_iff_colliding_eq_zero _ _).2 (colliding_normalizePair p n)

/-- 41_normalize.md R72: the pair of bits at a position after NORM. -/
theorem getLsbD_normalizePair (p n : Word) (i : Nat) :
    ((normalizePair p n).1.getLsbD i, (normalizePair p n).2.getLsbD i) =
      if p.getLsbD i = true ∧ n.getLsbD i = true then (false, false)
      else (p.getLsbD i, n.getLsbD i) := by
  rw [normalizePair_eq, getLsbD_and_not, getLsbD_and_not]
  cases p.getLsbD i <;> cases n.getLsbD i <;> rfl

/-- Settles O11: each word loses the bits of the other. -/
theorem normPositionByPosition : Obligations.NormPositionByPosition := by
  intro s
  have hpair := normalizePair_eq s.P s.N
  exact ⟨_, exec_norm s, congrArg Prod.fst hpair, congrArg Prod.snd hpair,
    getLsbD_normalizePair s.P s.N⟩

/-- 41_normalize.md R73 (c): a colliding position counts in both words before NORM and in neither
after. -/
theorem setBitsBelow_and_not_add (p n : Word) (k : Nat) :
    setBitsBelow (p &&& ~~~n) k + setBitsBelow (n &&& ~~~p) k + 2 * setBitsBelow (colliding p n) k =
      setBitsBelow p k + setBitsBelow n k := by
  induction k with
  | zero => rfl
  | succ k ih =>
    have hbit (a b : Bool) : (if (a && !b) then 1 else 0) + (if (b && !a) then 1 else 0) +
        2 * (if (a && b) then 1 else 0) = (if a then 1 else 0) + if b then 1 else 0 := by
      cases a <;> cases b <;> rfl
    have hk := hbit (p.getLsbD k) (n.getLsbD k)
    simp only [setBitsBelow, getLsbD_and_not, getLsbD_colliding]
    omega

/-- Settles O12: the pair that NORM writes is normalized, and on a normalized pair NORM does
nothing. -/
theorem normIsIdempotentAndExact : Obligations.NormIsIdempotentAndExact := by
  intro s
  have hpair := normalizePair_eq s.P s.N
  have hagain := normalizePair_of_colliding_eq_zero (colliding_normalizePair s.P s.N)
  refine ⟨_, exec_norm s, ?_, ?_, ?_, fun hcoll => ?_⟩
  · rw [exec_norm]
    simp only [hagain]
  · simp only [hpair]
    exact setBitsBelow_and_not_add s.P s.N 64
  · rw [val_eq_maskValue_sub (isNormalized_normalizePair s.P s.N), hpair]
  · have hsame := normalizePair_of_colliding_eq_zero hcoll
    exact ⟨congrArg Prod.fst hsame, congrArg Prod.snd hsame⟩

/-! ## NEG -/

/-- Everything `val` can answer (10_state.md R13). -/
theorem val_eq_some_iff {p n : Word} {z : Int} :
    val p n = some z ↔ isNormalized p n = true ∧ maskValue p - maskValue n = z := by
  cases h : isNormalized p n with
  | false => simp [val, h]
  | true => simp [val_eq_maskValue_sub h]

/-- 42_negate.md R81: the value of the masks exchanged. -/
theorem val_exchange_iff {p n : Word} {z : Int} : val p n = some z ↔ val n p = some (-z) := by
  rw [val_eq_some_iff, val_eq_some_iff, isNormalized_comm]
  exact and_congr_right fun _ => by omega

theorem normalizePair_exchange (p n : Word) :
    normalizePair n p = ((normalizePair p n).2, (normalizePair p n).1) := by
  rw [normalizePair_eq, normalizePair_eq]

/-- Settles O14: NEG exchanges the masks, and every clause is the behaviour of an exchange. -/
theorem negIsTheAdditiveInverse : Obligations.NegIsTheAdditiveInverse := by
  intro s
  refine ⟨_, s.N, s.P, exec_neg s, rfl, colliding_comm _ _, exec_neg _, fun z => val_exchange_iff,
    normalizePair_exchange _ _, ?_⟩
  rw [Prod.mk.injEq]
  exact ⟨fun h => h.2, fun h => ⟨h.symm, h⟩⟩

/-! ## CLR and NEGM -/

/-- A command of a listing, presented next, runs on its operands. -/
theorem step_present_commandFor {i : Instr} (hwf : i.wf = true) (a b : Word) (s : State) :
    step (present (.command (commandFor i a b)) s) = exec i { s with dinP := a, dinN := b } :=
  step_present_legal (decodeOfEncodeIsIdentity i hwf) a b s

theorem step_present_load (a b : Word) (s : State) :
    step (present (.command (commandFor .load a b)) s) =
      .next { s with P := a, N := b, dinP := a, dinN := b, out := some { ill := false } } := by
  rw [step_present_commandFor rfl, exec_load]

theorem step_present_neg (a b : Word) (s : State) :
    step (present (.command (commandFor .neg a b)) s) =
      .next { s with dinP := a, dinN := b,
                     out := some { ill := false, resP := some s.N, resN := some s.P } } := by
  rw [step_present_commandFor rfl, exec_neg]

/-- Settles O15: CLR is LOAD of zeros; the LOAD that NEGM carries forward has the two words NEG
answered with. -/
theorem pseudoInstructionsClrAndNegm : Obligations.PseudoInstructionsClrAndNegm := by
  intro s
  exact ⟨⟨_, rfl, _, step_present_load 0 0 s, rfl, rfl⟩,
    ⟨_, rfl, _, _, _, step_present_neg 0 0 s, rfl, step_present_load s.N s.P _, rfl, rfl, rfl⟩⟩

/-! ## The collision detector -/

/-- Counting the set bits of a word is counting the positions where it has one. -/
theorem setBitsBelow_eq_card (v : Word) (k : Nat) :
    setBitsBelow v k = ((Finset.range k).filter fun i => v.getLsbD i = true).card := by
  induction k with
  | zero => rfl
  | succ k ih =>
    rw [setBitsBelow, ih, Finset.range_add_one, Finset.filter_insert]
    cases v.getLsbD k <;> simp

/-- Settles O42: the set bits of the collision word are the positions without a trit. -/
theorem collisionDetectorCounts : Obligations.CollisionDetectorCounts := by
  intro p n
  have hcard : popcount (colliding p n) =
      ((Finset.range 64).filter fun i => trit p n i = none).card := by
    rw [popcount, setBitsBelow_eq_card]
    refine congrArg Finset.card (Finset.filter_congr fun i hi => ?_)
    rw [trit_eq_none_iff (Finset.mem_range.1 hi), getLsbD_colliding, Bool.and_eq_true]
  refine ⟨colliding_comm p n, hcard, ?_, ?_⟩
  · exact hcard.trans_le ((Finset.card_filter_le _ _).trans_eq (Finset.card_range 64))
  · rw [hcard, Finset.card_eq_zero, Finset.filter_eq_empty_iff, ← Bool.not_eq_false,
      isNormalized_eq_false_iff, not_exists]
    refine forall_congr' fun i => ?_
    rw [Finset.mem_range, not_and]
    exact forall_congr' fun hi => not_congr (trit_eq_none_iff hi)

end Sys2Proof.Machine

/-! TOINT on every pair of words (43_to_signed.md R91 to R94) and the range and uniqueness of values
(10_state.md R13). -/

namespace Sys2Proof.Machine

/-! ## Sums of three-valued digits -/

/-- 10_state.md R13: digits of magnitude at most 1 at `k` positions stay below half of `3^k`. -/
theorem two_mul_sumTo_bound {f : Nat → Int} (hf : ∀ i, -1 ≤ f i ∧ f i ≤ 1) (k : Nat) :
    -(3 ^ k - 1) ≤ 2 * sumTo (fun i => f i * 3 ^ i) k ∧
      2 * sumTo (fun i => f i * 3 ^ i) k ≤ 3 ^ k - 1 := by
  induction k with
  | zero => simp
  | succ k ih =>
    obtain ⟨hlo, hhi⟩ := hf k
    have hpos : (0 : Int) < 3 ^ k := by positivity
    have hge : -(3 ^ k) ≤ f k * 3 ^ k := by nlinarith
    have hle : f k * 3 ^ k ≤ 3 ^ k := by nlinarith
    rw [sumTo_succ, pow_succ]
    omega

theorem contribution_bound (c : CollideCoeff) (a b : Bool) :
    -1 ≤ contribution c a b ∧ contribution c a b ≤ 1 := by
  cases c <;> cases a <;> cases b <;> decide

/-- 43_to_signed.md R93: what the first `k` positions contribute stays below half of `3^k`. -/
theorem two_mul_contributions_bound (c : CollideCoeff) (p n : Word) (k : Nat) :
    -(3 ^ k - 1) ≤ 2 * sumTo (fun i => contribution c (p.getLsbD i) (n.getLsbD i) * 3 ^ i) k ∧
      2 * sumTo (fun i => contribution c (p.getLsbD i) (n.getLsbD i) * 3 ^ i) k ≤ 3 ^ k - 1 :=
  two_mul_sumTo_bound (fun _ => contribution_bound c _ _) k

/-- 10_state.md R13: the number of values. -/
theorem two_mul_maxValue_add_one : 2 * Config.maxValue + 1 = 3 ^ 64 := by decide

theorem signedSum_bound (c : CollideCoeff) (p n : Word) :
    -Config.maxValue ≤ signedSum c p n ∧ signedSum c p n ≤ Config.maxValue := by
  obtain ⟨hlo, hhi⟩ := two_mul_contributions_bound c p n 64
  have hmax := two_mul_maxValue_add_one
  change -(3 ^ 64 - 1) ≤ 2 * signedSum c p n at hlo
  change 2 * signedSum c p n ≤ 3 ^ 64 - 1 at hhi
  omega

/-! ## The 128-bit result -/

theorem maxValue_lt : Config.maxValue < 2 ^ 101 := by decide

/-- A word of more than 101 bits holds every integer within the range of 64 trits. -/
theorem toInt_ofInt_of_bound {w : Nat} (hw : 102 ≤ w) {z : Int}
    (hz : -Config.maxValue ≤ z ∧ z ≤ Config.maxValue) : (BitVec.ofInt w z).toInt = z := by
  have hmax := maxValue_lt
  have hpow : (2 : Int) ^ 101 ≤ 2 ^ (w - 1) := pow_le_pow_right₀ (by decide) (by omega)
  exact BitVec.toInt_ofInt_eq_self (by omega) (by omega) (by omega)

/-- 43_to_signed.md R93: the bits from 101 up all repeat the sign. -/
theorem getLsbD_ofInt_eq_msb {z : Int} (hz : -Config.maxValue ≤ z ∧ z ≤ Config.maxValue) {b : Nat}
    (hlo : 101 ≤ b) (hhi : b < 128) :
    (BitVec.ofInt 128 z).getLsbD b = (BitVec.ofInt 128 z).msb := by
  have hext : BitVec.ofInt 128 z = (BitVec.ofInt 102 z).signExtend 128 := by
    rw [BitVec.signExtend, toInt_ofInt_of_bound le_rfl hz]
  have htop : (BitVec.ofInt 102 z).msb = (BitVec.ofInt 102 z).getLsbD 101 :=
    BitVec.msb_eq_getLsbD_last _
  rw [hext, BitVec.getLsbD_signExtend, BitVec.msb_signExtend, htop]
  obtain rfl | hgt := hlo.eq_or_lt
  · simp
  · simp [hhi, not_lt.2 (Nat.succ_le_of_lt hgt)]

/-! ## Leading zeros -/

theorem leadingZerosBelow_le (v : Word) (k : Nat) : leadingZerosBelow v k ≤ k := by
  induction k with
  | zero => exact le_rfl
  | succ k ih =>
    rw [leadingZerosBelow]
    split_ifs <;> omega

/-- The leading zeros are clear bits, and the bit below them is set. -/
theorem leadingZerosBelow_spec (v : Word) (k : Nat) :
    (∀ i < k, k - leadingZerosBelow v k ≤ i → v.getLsbD i = false) ∧
      (leadingZerosBelow v k < k → v.getLsbD (k - leadingZerosBelow v k - 1) = true) := by
  induction k with
  | zero => simp
  | succ k ih =>
    obtain ⟨hclear, hset⟩ := ih
    cases hk : v.getLsbD k with
    | true =>
      simp only [leadingZerosBelow, hk, if_true]
      exact ⟨fun i hi hle => by omega, fun _ => hk⟩
    | false =>
      simp only [leadingZerosBelow, hk, Bool.false_eq_true, if_false]
      refine ⟨fun i hi hle => ?_, fun hlt => ?_⟩
      · obtain rfl | hik := Nat.lt_succ_iff_lt_or_eq.1 hi |>.symm
        · exact hk
        · exact hclear i hik (by omega)
      · rw [Nat.add_sub_add_right]
        exact hset (by omega)

/-- 00_scope.md R7: a word has no bit from `j` on exactly when `64 - clz64` is at most `j`. -/
theorem shiftRight_eq_zero_iff (v : Word) (j : Nat) : v >>> j = 0 ↔ 64 - clz64 v ≤ j := by
  obtain ⟨hclear, hset⟩ := leadingZerosBelow_spec v 64
  constructor
  · intro hzero
    by_contra hlt
    have htop := hset (by rw [clz64] at hlt; omega)
    have hbit := congrArg (BitVec.getLsbD · (64 - clz64 v - 1 - j)) hzero
    simp only [BitVec.getLsbD_ushiftRight] at hbit
    rw [show j + (64 - clz64 v - 1 - j) = 64 - clz64 v - 1 by omega, clz64, htop] at hbit
    simp at hbit
  · intro hle
    refine BitVec.eq_of_getLsbD_eq fun i _ => ?_
    rw [BitVec.getLsbD_ushiftRight]
    by_cases hi : j + i < 64
    · simpa using hclear (j + i) hi (hle.trans (Nat.le_add_right j i))
    · simpa using BitVec.getLsbD_of_ge v (j + i) (not_lt.1 hi)

/-! ## The reference loop -/

/-- The loop of 43_to_signed.md R91 after `j` passes, not stopping. -/
def loopAfter (c : CollideCoeff) (p n : Word) (j : Nat) : LoopState where
  p := p >>> j
  n := n >>> j
  acc := 3 ^ j
  sum := sumTo (fun i => contribution c (p.getLsbD i) (n.getLsbD i) * 3 ^ i) j
  passes := j

theorem loopPass_loopAfter (c : CollideCoeff) (p n : Word) (j : Nat) :
    loopPass c (loopAfter c p n j) = loopAfter c p n (j + 1) := by
  simp [loopPass, loopAfter, BitVec.shiftRight_add, pow_succ]

/-- The two words are both empty exactly when their union is. -/
theorem loopAfter_goes_on_iff (c : CollideCoeff) (p n : Word) (j : Nat) :
    ((loopAfter c p n j).p ≠ 0 ∨ (loopAfter c p n j).n ≠ 0) ↔ j < 64 - clz64 (p ||| n) := by
  rw [← not_le, ← shiftRight_eq_zero_iff, BitVec.ushiftRight_or_distrib]
  exact not_and_or.symm.trans (not_congr BitVec.or_eq_zero_iff.symm)

/-- 43_to_signed.md R91: with enough fuel the loop stops right after the highest set bit. -/
theorem runLoop_loopAfter (c : CollideCoeff) (p n : Word) {fuel j : Nat}
    (hj : j ≤ 64 - clz64 (p ||| n)) (hfuel : 64 - clz64 (p ||| n) ≤ j + fuel) :
    runLoop c fuel (loopAfter c p n j) = loopAfter c p n (64 - clz64 (p ||| n)) := by
  induction fuel generalizing j with
  | zero => rw [runLoop, le_antisymm hj hfuel]
  | succ fuel ih =>
    rw [runLoop]
    by_cases hlt : j < 64 - clz64 (p ||| n)
    · rw [if_pos ((loopAfter_goes_on_iff c p n j).2 hlt), loopPass_loopAfter,
        ih hlt (by omega)]
    · rw [if_neg (mt (loopAfter_goes_on_iff c p n j).1 hlt), le_antisymm hj (not_lt.1 hlt)]

theorem referenceLoop_eq (c : CollideCoeff) (p n : Word) :
    referenceLoop c p n = loopAfter c p n (64 - clz64 (p ||| n)) := by
  rw [← runLoop_loopAfter c p n (Nat.zero_le _) (fuel := 64) (by omega)]
  simp [referenceLoop, loopAfter]

/-- Positions that add nothing can be left off the end of a sum. -/
theorem sumTo_eq_of_zero_above {f : Nat → Int} {j k : Nat} (hjk : j ≤ k)
    (hf : ∀ i, j ≤ i → i < k → f i = 0) : sumTo f k = sumTo f j := by
  induction k, hjk using Nat.le_induction with
  | base => rfl
  | succ k hjk ih =>
    rw [sumTo_succ, hf k hjk k.lt_succ_self, add_zero, ih fun i hi hik => hf i hi (by omega)]

/-- Above the highest set bit of either word nothing is added. -/
theorem signedSum_eq_of_clear_above (c : CollideCoeff) {p n : Word} {k : Nat} (hk : k ≤ 64)
    (hclear : ∀ i, k ≤ i → p.getLsbD i = false ∧ n.getLsbD i = false) :
    signedSum c p n =
      sumTo (fun i => contribution c (p.getLsbD i) (n.getLsbD i) * 3 ^ i) k := by
  refine sumTo_eq_of_zero_above hk fun i hi _ => ?_
  obtain ⟨hp, hn⟩ := hclear i hi
  rw [hp, hn, contribution, zero_mul]

theorem getLsbD_eq_false_of_clz64_le {v : Word} {i : Nat} (hi : 64 - clz64 v ≤ i) :
    v.getLsbD i = false := by
  have hbit := congrArg (BitVec.getLsbD · 0) ((shiftRight_eq_zero_iff v i).2 hi)
  simpa using hbit

/-- Settles O19: the loop leaves out only positions with both bits clear. -/
theorem referenceLoopComputesTheSum : Obligations.ReferenceLoopComputesTheSum := by
  intro c p n
  rw [referenceLoop_eq]
  have hclear (i : Nat) (hi : 64 - clz64 (p ||| n) ≤ i) :
      p.getLsbD i = false ∧ n.getLsbD i = false := by
    simpa using getLsbD_eq_false_of_clz64_le hi
  have hempty := (shiftRight_eq_zero_iff (p ||| n) _).2 le_rfl
  rw [BitVec.ushiftRight_or_distrib] at hempty
  obtain ⟨hp, hn⟩ := BitVec.or_eq_zero_iff.1 hempty
  exact ⟨(signedSum_eq_of_clear_above c (Nat.sub_le _ _) hclear).symm, rfl, hp, hn⟩

/-- Settles O18: half of `3^64` bounds the sum, and the loop's accumulator is `3` to the number of
passes. -/
theorem tointNeverOverflows : Obligations.TointNeverOverflows := by
  intro c p n
  have hbound := signedSum_bound c p n
  refine ⟨hbound.1, hbound.2, maxValue_lt, toInt_ofInt_of_bound (by decide) hbound,
    fun b => getLsbD_ofInt_eq_msb hbound, ?_⟩
  rw [referenceLoop_eq]
  exact pow_le_pow_right₀ (by decide) (Nat.sub_le _ _)

/-! ## Collisions in the sum -/

/-- Settles O17: without collisions the sum is the value, and the 128-bit word holds it. -/
theorem tointOfNormalizedIsTheValue : Obligations.TointOfNormalizedIsTheValue := by
  intro s z hz
  obtain ⟨hnorm, -⟩ := val_eq_some_iff.1 hz
  have hsum (c : CollideCoeff) : signedSum c s.P s.N = z :=
    Option.some.inj ((val_eq_signedSum c hnorm).symm.trans hz)
  refine ⟨hsum, _, _, exec_toint s, rfl, ?_⟩
  rw [toInt_ofInt_of_bound (by decide) (signedSum_bound _ _ _), hsum]

/-- 43_to_signed.md R94 (a): what NORM takes out of the sum. -/
theorem signedSum_eq_normalized_add (c : CollideCoeff) (p n : Word) :
    signedSum c p n = signedSum c (normalizePair p n).1 (normalizePair p n).2 +
      c.toInt * maskValue (colliding p n) := by
  have hbit (a b : Bool) : contribution c a b =
      contribution c (a && !b) (b && !a) + c.toInt * if (a && b) then 1 else 0 := by
    cases a <;> cases b <;> simp [contribution]
  rw [signedSum, signedSum, maskValue, ← sumTo_mul, ← sumTo_add, normalizePair_eq]
  refine sumTo_congr fun i _ => ?_
  rw [getLsbD_and_not, getLsbD_and_not, getLsbD_colliding, hbit]
  ring

/-- Settles O20: the collisions are all that NORM takes out, and what is left has a value. -/
theorem tointBeforeAndAfterNorm : Obligations.TointBeforeAndAfterNorm := fun c p n =>
  ⟨signedSum_eq_normalized_add c p n, val_eq_signedSum c (isNormalized_normalizePair p n)⟩

/-- 43_to_signed.md R94 (b): a collision counts with the same sign in both sums. -/
theorem signedSum_exchange_add (c : CollideCoeff) (p n : Word) :
    signedSum c n p + signedSum c p n = 2 * (c.toInt * maskValue (colliding p n)) := by
  have hbit (a b : Bool) : contribution c b a + contribution c a b =
      2 * (c.toInt * if (a && b) then 1 else 0) := by
    cases a <;> cases b <;> simp [contribution, two_mul]
  rw [signedSum, signedSum, maskValue, ← sumTo_mul, ← sumTo_mul, ← sumTo_add]
  refine sumTo_congr fun i _ => ?_
  rw [getLsbD_colliding, ← add_mul, hbit]
  ring

theorem maskValue_eq_zero_iff {v : Word} : maskValue v = 0 ↔ v = 0 := by
  have hnonneg : ∀ i ∈ Finset.range 64, 0 ≤ (if v.getLsbD i then 1 else 0) * (3 : Int) ^ i :=
    fun i _ => by positivity
  rw [maskValue, sumTo_eq_sum_range, Config.tritCapacity,
    Finset.sum_eq_zero_iff_of_nonneg hnonneg, BitVec.eq_of_getLsbD_eq_iff]
  simp

theorem CollideCoeff.toInt_eq_zero_iff {c : CollideCoeff} : c.toInt = 0 ↔ c = .zero := by
  cases c <;> decide

/-- Settles O21: the two sums are opposite exactly when the colliding powers add nothing. -/
theorem tointOfExchangedMasks : Obligations.TointOfExchangedMasks := by
  intro c p n
  have hadd := signedSum_exchange_add c p n
  refine ⟨hadd, ?_⟩
  rw [isNormalized_iff_colliding_eq_zero, ← CollideCoeff.toInt_eq_zero_iff, ← maskValue_eq_zero_iff,
    ← mul_eq_zero]
  omega

/-! ## Values are unique -/

/-- Digits of magnitude at most 1 are fixed by their sum: the top one by its size, then the rest. -/
theorem digits_eq_of_sumTo_eq {f g : Nat → Int} (hf : ∀ i, -1 ≤ f i ∧ f i ≤ 1)
    (hg : ∀ i, -1 ≤ g i ∧ g i ≤ 1) {k : Nat}
    (h : sumTo (fun i => f i * 3 ^ i) k = sumTo (fun i => g i * 3 ^ i) k) : ∀ i < k, f i = g i := by
  induction k with
  | zero => exact fun i hi => absurd hi i.not_lt_zero
  | succ k ih =>
    obtain ⟨hflo, hfhi⟩ := two_mul_sumTo_bound hf k
    obtain ⟨hglo, hghi⟩ := two_mul_sumTo_bound hg k
    rw [sumTo_succ, sumTo_succ] at h
    have htop : f k = g k := by
      have hpos : (0 : Int) < 3 ^ k := by positivity
      obtain hlt | heq | hgt := lt_trichotomy (f k) (g k)
      · nlinarith
      · exact heq
      · nlinarith
    rw [htop, add_left_inj] at h
    intro i hi
    obtain hik | rfl := Nat.lt_succ_iff_lt_or_eq.1 hi
    · exact ih h i hik
    · exact htop

/-- Without a collision the contribution of a position fixes both its bits. -/
theorem bits_eq_of_contribution_eq {a b a' b' : Bool} (h : (a && b) = false)
    (h' : (a' && b') = false)
    (heq : contribution .zero a b = contribution .zero a' b') : a = a' ∧ b = b' := by
  revert a b a' b'
  decide

theorem and_eq_false_of_isNormalized {p n : Word} (h : isNormalized p n = true) (i : Nat) :
    (p.getLsbD i && n.getLsbD i) = false := by
  rw [← getLsbD_colliding, (isNormalized_iff_colliding_eq_zero p n).1 h]
  exact BitVec.getLsbD_zero

/-- 10_state.md R13: two pairs with the same value are the same pair. -/
theorem eq_of_val_eq {p n p' n' : Word} {z : Int} (h : val p n = some z) (h' : val p' n' = some z) :
    p = p' ∧ n = n' := by
  obtain ⟨hnorm, -⟩ := val_eq_some_iff.1 h
  obtain ⟨hnorm', -⟩ := val_eq_some_iff.1 h'
  have hsum : signedSum .zero p n = signedSum .zero p' n' := Option.some.inj <| by
    rw [← val_eq_signedSum .zero hnorm, ← val_eq_signedSum .zero hnorm', h, h']
  have hdigits := digits_eq_of_sumTo_eq (fun _ => contribution_bound _ _ _)
    (fun _ => contribution_bound _ _ _) hsum
  have hbits (i : Nat) (hi : i < 64) :=
    bits_eq_of_contribution_eq (and_eq_false_of_isNormalized hnorm i)
      (and_eq_false_of_isNormalized hnorm' i) (hdigits i hi)
  exact ⟨BitVec.eq_of_getLsbD_eq fun i hi => (hbits i hi).1,
    BitVec.eq_of_getLsbD_eq fun i hi => (hbits i hi).2⟩

/-- Settles O24: the pair that the loop of `enc_u` makes for an integer in range is the only one. -/
theorem valuesAreUnique : Obligations.ValuesAreUnique := by
  have hmax := two_mul_maxValue_add_one
  refine ⟨hmax, fun p n z hz => ?_, fun z hlo hhi => ?_⟩
  · obtain ⟨hnorm, hmask⟩ := val_eq_some_iff.1 hz
    obtain rfl := Option.some.inj ((val_eq_signedSum .zero hnorm).symm.trans hz)
    obtain ⟨hlo, hhi⟩ := signedSum_bound .zero p n
    exact ⟨hlo, hhi, hmask.symm⟩
  · have hval := (encodesBelow_encodeSigned (z := z) (k := 64) (by omega) le_rfl).val_eq
    refine ⟨encodeSigned z, hval, fun other hother => ?_⟩
    obtain ⟨hp, hn⟩ := eq_of_val_eq hother hval
    exact Prod.ext hp hn

end Sys2Proof.Machine

/-! Events and runs (20_memory.md R34, 30_encoding.md R40, 60_exceptions.md R132), what commands
leave as it was (10_state.md R14, R20, R23), and the two invariants that every step keeps
(10_state.md R12, R20). -/

namespace Sys2Proof.Machine

/-! ## Frames of the commands -/

/-- Settles O43: the frame is read off the equation of each command. -/
theorem frameOfEveryCommand : Obligations.FrameOfEveryCommand := by
  intro i s
  cases i with
  | nop => exact ⟨_, _, exec_nop s, rfl, rfl, rfl, rfl, rfl, by simp⟩
  | load => exact ⟨_, _, exec_load s, rfl, rfl, rfl, rfl, rfl, by simp⟩
  | norm => exact ⟨_, _, exec_norm s, rfl, rfl, rfl, rfl, rfl, by simp⟩
  | neg => exact ⟨_, _, exec_neg s, rfl, rfl, rfl, rfl, rfl, by simp⟩
  | toint => exact ⟨_, _, exec_toint s, rfl, rfl, rfl, rfl, rfl, by simp⟩
  | rend alt width => exact ⟨_, _, exec_rend alt width s, rfl, rfl, rfl, rfl, rfl, by simp⟩
  | fromu => exact ⟨_, _, exec_fromu s, rfl, rfl, rfl, rfl, rfl, by simp⟩
  | froms => exact ⟨_, _, exec_froms s, rfl, rfl, rfl, rfl, rfl, by simp⟩

/-- Settles O45: in the equation of each command only the inputs it reads occur. -/
theorem unusedInputsAreIgnored : Obligations.UnusedInputsAreIgnored := by
  intro i s a b p n
  cases i with
  | nop => exact ⟨_, exec_nop s, by simp [exec_nop]⟩
  | load => exact ⟨_, exec_load s, by simp [exec_load]⟩
  | norm => exact ⟨_, exec_norm s, by simp [exec_norm]⟩
  | neg => exact ⟨_, exec_neg s, by simp [exec_neg]⟩
  | toint => exact ⟨_, exec_toint s, by simp [exec_toint]⟩
  | rend alt width => exact ⟨_, exec_rend alt width s, by simp [exec_rend]⟩
  | fromu => exact ⟨_, exec_fromu s, by simp [exec_fromu]⟩
  | froms => exact ⟨_, exec_froms s, by simp [exec_froms]⟩

/-- The commands that an event which cannot write T can be (10_state.md R14). -/
theorem ne_writer_of_writesT_eq_false {c : Command} {i : Instr} (hdec : decode c.cw = .ok i)
    (h : (HostEvent.command c).writesT = false) :
    i ≠ .load ∧ i ≠ .norm ∧ i ≠ .fromu ∧ i ≠ .froms := by
  refine ⟨?_, ?_, ?_, ?_⟩ <;> rintro rfl <;> simp [HostEvent.writesT, hdec] at h

/-- Settles O44: an idle interval and an illegal word write no register, and of the commands only
the four. -/
theorem onlyWritersChangeT : Obligations.OnlyWritersChangeT := by
  intro s e he
  rw [step_present]
  cases e with
  | idle => exact ⟨_, rfl, rfl, rfl, rfl⟩
  | reset => exact absurd he (by decide)
  | command c =>
    rw [serve_command]
    obtain ⟨i, hdec, hrun⟩ | ⟨why, -, hrun⟩ := runCommand_cases c.cw (latchOperands c s)
    · obtain ⟨hload, hnorm, hfromu, hfroms⟩ := ne_writer_of_writesT_eq_false hdec he
      obtain ⟨t, r, hexec, -, -, -, hpending, -, hT, -⟩ := frameOfEveryCommand i (latchOperands c s)
      obtain ⟨hP, hN⟩ := hT hload hnorm hfromu hfroms
      exact ⟨t, hrun.trans hexec, hP, hN, hpending⟩
    · exact ⟨_, hrun, rfl, rfl, rfl⟩

/-! ## Every event is served -/

/-- The event presents a word that is no command (60_exceptions.md R132). -/
def HostEvent.IsIllegal (e : HostEvent) : Prop :=
  ∃ c : Command, e = .command c ∧ isLegal c.cw = false

/-- What an event does to the model's own fields, and when its record has `ill = 1`. -/
structure Served (e : HostEvent) (s t : State) : Prop where
  pending : t.pending = s.pending
  mark : t.illegalSeen = true ↔ s.illegalSeen = true ∨ e.IsIllegal
  ill : (∃ r : OutRecord, t.out = some r ∧ r.ill = true) ↔ e.IsIllegal

/-- 60_exceptions.md R134: every event completes. -/
theorem serve_completes (e : HostEvent) (s : State) : ∃ t, serve e s = .next t ∧ Served e s t := by
  cases e with
  | idle => exact ⟨_, rfl, rfl, by simp [HostEvent.IsIllegal], by simp [HostEvent.IsIllegal]⟩
  | reset => exact ⟨_, rfl, rfl, by simp [HostEvent.IsIllegal], by simp [HostEvent.IsIllegal]⟩
  | command c =>
    rw [serve_command]
    obtain ⟨i, hdec, hrun⟩ | ⟨why, hdec, hrun⟩ := runCommand_cases c.cw (latchOperands c s)
    · have hlegal : ¬ (HostEvent.command c).IsIllegal := by
        simp [HostEvent.IsIllegal, isLegal, hdec]
      obtain ⟨p, n, r, hill, hexec⟩ := exec_determined_by_T_and_ports i (latchOperands c s)
      refine ⟨_, hrun.trans (hexec _ rfl rfl rfl rfl), rfl, ?_, ?_⟩
      · simp [hlegal]
      · simp [hlegal, hill]
    · have hillegal : (HostEvent.command c).IsIllegal :=
        ⟨c, rfl, isLegal_eq_false_iff.2 ⟨why, hdec⟩⟩
      exact ⟨_, hrun.trans (raiseIllegalCommand_eq_next_iff.2 rfl), rfl, by simp [hillegal],
        by simp [hillegal]⟩

/-- A step takes the first event there is and serves it; with none it is an idle interval. -/
theorem step_eq_serve (s : State) :
    step s = serve (s.pending.headD .idle) (dequeue s.pending.tail s) := by
  cases hpending : s.pending with
  | nil =>
    have hsame : dequeue [] s = s := hpending ▸ rfl
    exact (step_nothing_pending hpending).trans (congrArg (serve .idle) hsame.symm)
  | cons e rest => exact step_serves hpending

theorem step_completes (s : State) :
    ∃ t, step s = .next t ∧ Served (s.pending.headD .idle) (dequeue s.pending.tail s) t := by
  rw [step_eq_serve]
  exact serve_completes _ _

theorem isIllegal_headD_iff (events : List HostEvent) :
    (events.headD .idle).IsIllegal ↔
      ∃ (c : Command) (rest : List HostEvent),
        events = .command c :: rest ∧ isLegal c.cw = false := by
  cases events <;> simp [HostEvent.IsIllegal]

/-- Settles O35: the mark and the record are those of the event that is served. -/
theorem illegalWordsAreRecordedExactly : Obligations.IllegalWordsAreRecordedExactly := by
  intro s
  obtain ⟨t, hstep, hserved⟩ := step_completes s
  rw [← isIllegal_headD_iff]
  exact ⟨t, hstep, hserved.mark, hserved.ill⟩

/-- Settles O37, by induction on the number of steps. -/
theorem eventsAreTakenInOrder : Obligations.EventsAreTakenInOrder := by
  intro k
  induction k with
  | zero => exact fun s => ⟨s, run_zero s, rfl⟩
  | succ k ih =>
    intro s
    obtain ⟨t, hstep, hserved⟩ := step_completes s
    obtain ⟨u, hrun, hdrop⟩ := ih t
    refine ⟨u, (run_succ_of_next k hstep).trans hrun, ?_⟩
    rw [hdrop, hserved.pending, dequeue_pending, List.drop_tail]

/-- Settles O38: an idle event is taken off the list again, and no event leaves the list as it is.
-/
theorem idleKeepsT : Obligations.IdleKeepsT := fun _ => ⟨rfl, step_nothing_pending⟩

/-! ## The run is determined by T and the events to come -/

theorem step_answersAlike {s t : State} (h : s.SameBlock t) : AnswersAlike (step s) (step t) := by
  rw [step_eq_serve, step_eq_serve, h.pending]
  exact serve_answersAlike _ ⟨h.P, h.N, rfl⟩

/-- Settles O46, by induction on the number of steps: the last one makes the output record. -/
theorem registersDetermineTheRun : Obligations.RegistersDetermineTheRun := by
  intro k
  induction k with
  | zero => exact fun s t h => ⟨s, t, run_zero s, run_zero t, h, fun hk => absurd hk (lt_irrefl 0)⟩
  | succ k ih =>
    intro s t h
    obtain ⟨s', t', hs, ht, h', hout⟩ := step_answersAlike h
    obtain ⟨u, v, hu, hv, huv, hlast⟩ := ih s' t' h'
    refine ⟨u, v, (run_succ_of_next k hs).trans hu, (run_succ_of_next k ht).trans hv, huv,
      fun _ => ?_⟩
    obtain rfl | hk := Nat.eq_zero_or_pos k
    · cases hu
      cases hv
      exact hout
    · exact hlast hk

/-! ## The invariant `P & N = 0` -/

theorem EncodesBelow.isNormalized {k : Nat} {pq : Word × Word} {z : Int} (h : EncodesBelow k pq z) :
    isNormalized pq.1 pq.2 = true :=
  (isNormalized_iff_colliding_eq_zero _ _).2 h.noCollision

/-- 10_state.md R12: the commands that normalize whatever they find. -/
theorem exec_normalizes {i : Instr} (hi : i = .norm ∨ i = .fromu ∨ i = .froms) (s : State) :
    ∃ t, exec i s = .next t ∧ t.normalized = true := by
  obtain rfl | rfl | rfl := hi
  · exact ⟨_, exec_norm s, isNormalized_normalizePair _ _⟩
  · exact ⟨_, exec_fromu s, (encodesBelow_encodeUnsigned_word s.dinP).isNormalized⟩
  · exact ⟨_, exec_froms s, (encodesBelow_encodeSigned_word s.dinP).isNormalized⟩

/-- Settles O47: LOAD copies its operands, and the other writers make a normalized pair. -/
theorem writersThatNormalize : Obligations.WritersThatNormalize := fun s =>
  ⟨fun _ hi => exec_normalizes hi s, ⟨_, exec_load s, isNormalized_iff_colliding_eq_zero _ _⟩,
    ⟨_, step_present_reset s, encodesBelow_zero.isNormalized⟩⟩

theorem exec_keeps_normalized {i : Instr} {s : State} (hs : s.normalized = true)
    (hload : i = .load → isNormalized s.dinP s.dinN = true) :
    ∃ t, exec i s = .next t ∧ t.normalized = true := by
  cases i with
  | nop => exact ⟨_, exec_nop s, hs⟩
  | load => exact ⟨_, exec_load s, hload rfl⟩
  | neg => exact ⟨_, exec_neg s, hs⟩
  | toint => exact ⟨_, exec_toint s, hs⟩
  | rend alt width => exact ⟨_, exec_rend alt width s, hs⟩
  | norm | fromu | froms => exact exec_normalizes (by simp) s

/-- 70_reset_and_hazards.md R161: only a LOAD of colliding operands can make a collision. -/
theorem serve_keeps_normalized {e : HostEvent} {s : State} (hs : s.normalized = true)
    (he : e.loadsCollision = false) : ∃ t, serve e s = .next t ∧ t.normalized = true := by
  cases e with
  | idle => exact ⟨_, rfl, hs⟩
  | reset => exact ⟨_, rfl, encodesBelow_zero.isNormalized⟩
  | command c =>
    rw [serve_command]
    obtain ⟨i, hdec, hrun⟩ | ⟨why, -, hrun⟩ := runCommand_cases c.cw (latchOperands c s)
    · rw [hrun]
      refine exec_keeps_normalized hs ?_
      rintro rfl
      simpa [HostEvent.loadsCollision, hdec] using he
    · exact ⟨_, hrun, hs⟩

theorem State.staysNormalized_iff {s : State} :
    s.staysNormalized = true ↔
      s.normalized = true ∧ ∀ e ∈ s.pending, e.loadsCollision = false := by
  simp [State.staysNormalized]

/-- Settles O48: the event served is none that collides, and it leaves the events after it. -/
theorem stepKeepsNormalized : Obligations.StepKeepsNormalized := by
  intro s t hs hstep
  obtain ⟨hnorm, hevents⟩ := State.staysNormalized_iff.1 hs
  have hfirst : (s.pending.headD .idle).loadsCollision = false := by
    cases hpending : s.pending with
    | nil => rfl
    | cons e rest => exact hevents e (hpending ▸ List.mem_cons_self)
  obtain ⟨u, hu, hunorm⟩ := serve_keeps_normalized (s := dequeue s.pending.tail s) hnorm hfirst
  obtain ⟨v, hv, hserved⟩ := step_completes s
  obtain rfl := Host.Outcome.next.inj (hstep.symm.trans hv)
  obtain rfl := Host.Outcome.next.inj ((hstep.symm.trans (step_eq_serve s)).trans hu)
  refine State.staysNormalized_iff.2 ⟨hunorm, fun e he => hevents e ?_⟩
  rw [hserved.pending] at he
  exact List.mem_of_mem_tail he

/-- Settles O49: clear masks share no bit, and no event is pending. -/
theorem resetIsNormalized : Obligations.ResetIsNormalized :=
  ⟨encodesBelow_zero.isNormalized,
    State.staysNormalized_iff.2
      ⟨encodesBelow_zero.isNormalized, fun _ he => absurd he List.not_mem_nil⟩⟩

/-! ## The shape of the output record -/

theorem OutRecord.shape_of_no_result (ill : Bool) : OutRecord.Shape { ill := ill } := by
  constructor <;> simp [OutRecord.resultCount]

theorem OutRecord.shape_of_pair (p n : Word) :
    OutRecord.Shape { ill := false, resP := some p, resN := some n } := by
  constructor <;> simp [OutRecord.resultCount]

theorem OutRecord.shape_of_int {w : Int128}
    (h : -Config.maxValue ≤ w.toInt ∧ w.toInt ≤ Config.maxValue) :
    OutRecord.Shape { ill := false, resInt := some w } := by
  constructor <;> simp [OutRecord.resultCount, h]

theorem TextChar.code_mem_textCodes (c : TextChar) : c.code ∈ textCodes := by
  cases c <;> decide

theorem OutRecord.shape_of_text {cs : List TextChar} (h : cs.length ≤ 127) :
    OutRecord.Shape { ill := false, textLen := some (BitVec.ofNat 7 cs.length),
                      text := some (cs.map TextChar.code) } := by
  have hlen : cs.length % 128 = cs.length := Nat.mod_eq_of_lt (Nat.lt_succ_of_le h)
  constructor <;> simp [OutRecord.resultCount, TextChar.code_mem_textCodes, hlen]

/-- 10_state.md R20: the record of a well-formed command has its shape, and `ill = 0`. -/
theorem exec_answers_shape {i : Instr} (hwf : i.wf = true) (s : State) :
    ∃ t r, exec i s = .next t ∧ t.out = some r ∧ r.ill = false ∧ r.Shape := by
  cases i with
  | nop => exact ⟨_, _, exec_nop s, rfl, rfl, OutRecord.shape_of_no_result false⟩
  | load => exact ⟨_, _, exec_load s, rfl, rfl, OutRecord.shape_of_no_result false⟩
  | norm => exact ⟨_, _, exec_norm s, rfl, rfl, OutRecord.shape_of_no_result false⟩
  | neg => exact ⟨_, _, exec_neg s, rfl, rfl, OutRecord.shape_of_pair _ _⟩
  | toint =>
    have hbound := signedSum_bound Config.collideCoeff s.P s.N
    refine ⟨_, _, exec_toint s, rfl, rfl, OutRecord.shape_of_int ?_⟩
    rwa [toInt_ofInt_of_bound (by decide) hbound]
  | rend alt width =>
    exact ⟨_, _, exec_rend alt width s, rfl, rfl,
      OutRecord.shape_of_text (length_renderText_le (wf_rend_iff.1 hwf) _ _)⟩
  | fromu => exact ⟨_, _, exec_fromu s, rfl, rfl, OutRecord.shape_of_no_result false⟩
  | froms => exact ⟨_, _, exec_froms s, rfl, rfl, OutRecord.shape_of_no_result false⟩

theorem State.outputsInOrder_of_no_record {s : State} (h : s.out = none) : s.OutputsInOrder := by
  constructor <;> simp [h]

theorem State.outputsInOrder_of_record {s : State} {r : OutRecord} (h : s.out = some r)
    (hshape : r.Shape) (hmark : r.ill = true → s.illegalSeen = true) : s.OutputsInOrder where
  shape _ hr := Option.some.inj (h.symm.trans hr) ▸ hshape
  recorded _ hr := Option.some.inj (h.symm.trans hr) ▸ hmark

theorem serve_outputsInOrder (e : HostEvent) (s : State) :
    ∃ t, serve e s = .next t ∧ t.OutputsInOrder := by
  cases e with
  | idle => exact ⟨_, rfl, State.outputsInOrder_of_no_record rfl⟩
  | reset => exact ⟨_, rfl, State.outputsInOrder_of_no_record rfl⟩
  | command c =>
    rw [serve_command]
    obtain ⟨i, hdec, hrun⟩ | ⟨why, -, hrun⟩ := runCommand_cases c.cw (latchOperands c s)
    · obtain ⟨hwf, -⟩ := encodeOfDecodeIsIdentity c.cw i hdec
      obtain ⟨t, r, hexec, hout, hill, hshape⟩ := exec_answers_shape hwf (latchOperands c s)
      exact ⟨t, hrun.trans hexec,
        State.outputsInOrder_of_record hout hshape fun h => absurd h (by simp [hill])⟩
    · exact ⟨_, hrun, State.outputsInOrder_of_record rfl (OutRecord.shape_of_no_result true)
        fun _ => rfl⟩

/-- Settles O50: the record after a step is that of the event served, whatever record stood before.
-/
theorem stepKeepsOutputsInOrder : Obligations.StepKeepsOutputsInOrder := by
  intro s t _ hstep
  obtain ⟨u, hu, horder⟩ := serve_outputsInOrder (s.pending.headD .idle) (dequeue s.pending.tail s)
  obtain rfl := Host.Outcome.next.inj ((hstep.symm.trans (step_eq_serve s)).trans hu)
  exact horder

/-- Settles O51: there is no record to be out of order. -/
theorem resetOutputsInOrder : Obligations.ResetOutputsInOrder :=
  State.outputsInOrder_of_no_record reset_out

end Sys2Proof.Machine

/-! Conversions from binary on every operand (44_from_binary.md R100 to R106): the round trips
through TOINT, the number of passes of `enc_u`, and its form with floored division. -/

namespace Sys2Proof.Machine

/-! ## Round trips -/

theorem EncodesBelow.signedSum_eq {k : Nat} {pq : Word × Word} {z : Int} (h : EncodesBelow k pq z)
    (c : CollideCoeff) : signedSum c pq.1 pq.2 = z :=
  Option.some.inj ((val_eq_signedSum c h.isNormalized).symm.trans h.val_eq)

/-- TOINT on a pair that encodes `z` answers `z` as a 128-bit word and keeps the pair. -/
theorem step_toint_of_encodes {k : Nat} {t : State} {z : Int} (h : EncodesBelow k (t.P, t.N) z)
    (x y : Word) :
    ∃ u : State, step (present (.command ⟨0x0004#16, x, y⟩) t) = .next u ∧
      u.out = some { ill := false, resInt := some (BitVec.ofInt 128 z) } ∧
      u.P = t.P ∧ u.N = t.N := by
  rw [step_present_legal decode_toint, exec_toint]
  exact ⟨_, rfl, by rw [h.signedSum_eq], rfl, rfl⟩

/-- Settles O25: FROMS encodes the signed operand, and extending its sign is reading it as an
integer. -/
theorem signedRoundTrip : Obligations.SignedRoundTrip := by
  intro s d b x y
  obtain ⟨u, hu⟩ := step_toint_of_encodes (encodesBelow_encodeSigned_word d) (t := { s with
    P := (encodeSigned d.toInt).1, N := (encodeSigned d.toInt).2, dinP := d, dinN := b,
    out := some { ill := false } }) x y
  refine ⟨_, u, ?_, hu⟩
  rw [step_present_legal decode_froms, exec_froms]

theorem ofInt_toNat_eq_setWidth (d : Word) : BitVec.ofInt 128 (d.toNat : Int) = d.setWidth 128 := by
  rw [BitVec.ofInt_natCast, BitVec.ofNat_toNat]

/-- Settles O26: FROMU encodes the unsigned operand, which 128 bits hold with zeros above. -/
theorem unsignedRoundTrip : Obligations.UnsignedRoundTrip := by
  intro s d b x y
  obtain ⟨u, hu⟩ := step_toint_of_encodes (encodesBelow_encodeUnsigned_word d) (t := { s with
    P := (encodeUnsigned d.toNat).1, N := (encodeUnsigned d.toNat).2, dinP := d, dinN := b,
    out := some { ill := false } }) x y
  rw [ofInt_toNat_eq_setWidth] at hu
  refine ⟨_, u, ?_, hu⟩
  rw [step_present_legal decode_fromu, exec_fromu]

/-! ## The number of passes -/

/-- One pass takes exactly the numbers within reach of `k + 1` trits to those within reach of `k`.
-/
theorem two_mul_nextQuotient_lt_iff {m k : Nat} :
    2 * nextQuotient m < 3 ^ k ↔ 2 * m < 3 ^ (k + 1) := by
  refine ⟨fun h => ?_, two_mul_nextQuotient_lt⟩
  rw [pow_succ]
  rw [nextQuotient] at h
  split_ifs at h <;> omega

/-- 44_from_binary.md R104: the passes are the least number of trits that reaches `m`. -/
theorem encodePassesFrom_le_iff {fuel m : Nat} (hm : 2 * m < 3 ^ fuel) (k : Nat) :
    encodePassesFrom fuel m ≤ k ↔ 2 * m < 3 ^ k := by
  induction fuel generalizing m k with
  | zero =>
    obtain rfl : m = 0 := by omega
    simp [encodePassesFrom]
  | succ fuel ih =>
    obtain rfl | hm0 := eq_or_ne m 0
    · simp [encodePassesFrom]
    · rw [encodePassesFrom, if_neg hm0]
      cases k with
      | zero => exact iff_of_false (Nat.not_succ_le_zero _) (by omega)
      | succ k =>
        exact Nat.succ_le_succ_iff.trans
          ((ih (two_mul_nextQuotient_lt hm) k).trans two_mul_nextQuotient_lt_iff)

theorem encodePasses_le_iff {m : Nat} (hm : m < 2 ^ 64) (k : Nat) :
    encodePasses m ≤ k ↔ m ≤ (3 ^ k - 1) / 2 := by
  have hodd : 3 ^ k % 2 = 1 := Nat.odd_iff.1 (Odd.pow (by decide))
  have hpos : 0 < 3 ^ k := Nat.pow_pos (by decide)
  rw [encodePasses, encodePassesFrom_le_iff (by rw [Config.tritCapacity]; omega)]
  omega

/-- A pair whose positions from `k + 1` on are clear and whose value is beyond the reach of `k`
trits has its top trit `+`. -/
theorem EncodesBelow.posBit_top {k : Nat} {pq : Word × Word} {z : Int}
    (h : EncodesBelow (k + 1) pq z) (hk : k < 64) (hz : 3 ^ k - 1 < 2 * z) :
    pq.1.getLsbD k = true := by
  by_contra hclear
  have hsum := h.signedSum_eq .zero
  rw [signedSum_eq_of_clear_above .zero hk h.clear, sumTo_succ] at hsum
  obtain ⟨-, hhi⟩ := two_mul_contributions_bound .zero pq.1 pq.2 k
  have htop : contribution .zero (pq.1.getLsbD k) (pq.2.getLsbD k) * 3 ^ k ≤ 0 := by
    rw [Bool.not_eq_true] at hclear
    have hpos : (0 : Int) ≤ 3 ^ k := by positivity
    cases pq.2.getLsbD k <;> simp [hclear, contribution, hpos]
  omega

/-- Settles O27: the reach of 41 trits passes `2^63`, that of 42 passes `2^64`. -/
theorem encoderPassesAreLeast : Obligations.EncoderPassesAreLeast := by
  intro m hm
  have hleast := encodePasses_le_iff hm
  have h42 : encodePasses m ≤ 42 := (hleast 42).2 (by omega)
  refine ⟨hleast, fun hle => (hleast 41).2 (by omega), h42, fun hge => ⟨?_, ?_⟩⟩
  · have h41 : ¬ encodePasses m ≤ 41 := mt (hleast 41).1 (by omega)
    omega
  · have henc := encodesBelow_encodeUnsigned (m := m) (k := 42) (by omega) (by decide)
    exact henc.posBit_top (by decide) (by omega)

/-! ## Floored division -/

/-- On a non-negative number the floored loop is the loop of `enc_u`. -/
theorem flooredLoop_natCast (fuel i m : Nat) (pq : Word × Word) :
    flooredLoop fuel i m pq = encodeLoop fuel i m pq := by
  induction fuel generalizing i m pq with
  | zero => rfl
  | succ fuel ih =>
    rw [flooredLoop, encodeLoop]
    simp only [← ih]
    norm_cast

/-- 44_from_binary.md R103: floored division turns a remainder 1 into 2 and back, so the masks are
exchanged. -/
theorem flooredLoop_neg (fuel i m : Nat) (pq : Word × Word) :
    flooredLoop fuel i (-m) pq = (encodeLoop fuel i m pq.swap).swap := by
  induction fuel generalizing i m pq with
  | zero => rfl
  | succ fuel ih =>
    rw [flooredLoop, encodeLoop]
    by_cases hm0 : m = 0
    · simp [hm0]
    · obtain h0 | h1 | h2 : m % 3 = 0 ∨ m % 3 = 1 ∨ m % 3 = 2 := by omega
      · have hrem : -(m : Int) % 3 = 0 := by omega
        have hquot : -(m : Int) / 3 = -(m / 3 : Nat) := by omega
        simpa [hm0, h0, hrem, hquot] using ih (i + 1) (m / 3) pq
      · have hrem : -(m : Int) % 3 = 2 := by omega
        have hquot : -(m : Int) / 3 + 1 = -(m / 3 : Nat) := by omega
        simpa [hm0, h1, hrem, hquot] using ih (i + 1) (m / 3) (pq.1, setBit pq.2 i)
      · have hrem : -(m : Int) % 3 = 1 := by omega
        have hquot : -(m : Int) / 3 = -(m / 3 + 1 : Nat) := by omega
        simpa [hm0, h2, hrem, hquot] using ih (i + 1) (m / 3 + 1) (setBit pq.1 i, pq.2)

theorem encodeFloored_eq_encodeSigned (z : Int) : encodeFloored z = encodeSigned z := by
  obtain hneg | hnonneg := lt_or_ge z 0
  · have hmag : z = -((-z).toNat : Int) := by omega
    rw [encodeSigned_of_neg hneg, encodeFloored, hmag, flooredLoop_neg, ← hmag]
    rfl
  · have hmag : z = (z.toNat : Int) := by omega
    rw [encodeSigned_of_nonneg hnonneg, encodeFloored, hmag, flooredLoop_natCast, ← hmag]
    rfl

/-- Settles O28: the two loops agree on both signs, and a clear sign bit makes the two readings of
the operand one number. -/
theorem flooredDivisionGivesTheSamePair : Obligations.FlooredDivisionGivesTheSamePair := by
  intro s
  refine ⟨_, exec_froms s, encodeFloored_eq_encodeSigned _, fun hmsb => ?_⟩
  have hint : s.dinP.toInt = s.dinP.toNat := BitVec.toInt_eq_toNat_of_msb hmsb
  rw [exec_fromu, hint, encodeSigned_of_nonneg (Int.natCast_nonneg _), Int.toNat_natCast]

end Sys2Proof.Machine

/-! REND on every pair of words (45_render.md R111 to R119): how long the text is, which number its
digits write, and what collisions and equal masks do to it. -/

namespace Sys2Proof.Machine

/-! ## Lengths -/

/-- 00_scope.md R7: `64 - clz64` is the least position from which on a word is clear. -/
theorem clear_above_iff {v : Word} {j : Nat} :
    (∀ i, j ≤ i → v.getLsbD i = false) ↔ 64 - clz64 v ≤ j := by
  constructor
  · intro h
    refine (shiftRight_eq_zero_iff v j).1 (BitVec.eq_of_getLsbD_eq fun i _ => ?_)
    rw [BitVec.getLsbD_ushiftRight, h (j + i) (Nat.le_add_right j i)]
    exact BitVec.getLsbD_zero.symm
  · exact fun h i hi => getLsbD_eq_false_of_clz64_le (h.trans hi)

/-- 45_render.md R111: a character is `'0'` exactly where the two bits are the same. -/
theorem positionChar_eq_zero_iff {p n : Word} {k : Nat} :
    positionChar p n k = .zero ↔ (p ^^^ n).getLsbD (63 - k) = false := by
  rw [positionChar, BitVec.getLsbD_xor]
  cases p.getLsbD (63 - k) <;> cases n.getLsbD (63 - k) <;> decide

/-- 45_render.md R112: as many digits as there are positions up to the highest one where the masks
differ. -/
theorem length_digits_eq_clz64 (p n : Word) : (digits p n).length = 64 - clz64 (p ^^^ n) := by
  rw [length_digits]
  refine le_antisymm ?_ (clear_above_iff.1 fun i hi => ?_)
  · by_contra hlt
    exact positionChar_leadingZeroChars_ne_zero (p := p) (n := n) (by omega)
      (positionChar_eq_zero_iff.2 (getLsbD_eq_false_of_clz64_le (by omega)))
  · by_cases h64 : i < 64
    · have hzero := positionChar_eq_zero_iff.1
        (positionChar_eq_zero_of_lt (p := p) (n := n) (k := 63 - i) (by omega))
      rwa [show 63 - (63 - i) = i by omega] at hzero
    · exact BitVec.getLsbD_of_ge _ _ (not_lt.1 h64)

theorem head?_digits_ne_zero (p n : Word) : (digits p n).head? ≠ some .zero := by
  intro h
  have hkept := List.head?_dropWhile_not (· == TextChar.zero) (positionChars p n)
  rw [← digits, h] at hkept
  exact absurd hkept (by decide)

theorem length_radixMark (alt : Bool) : (radixMark alt).length = 2 * alt.toNat := by
  cases alt <;> rfl

theorem padCount_eq_sub (width len : Nat) : padCount width len = width - len := by
  rw [padCount]
  split_ifs <;> omega

/-- 45_render.md R116: the total number of characters. -/
theorem length_renderText (alt : Bool) (width : Nat) (p n : Word) :
    (renderText alt width p n).length = max ((digits p n).length + 2 * alt.toNat) width := by
  simp only [renderText, padCount_eq_sub, length_radixMark, List.length_append,
    List.length_replicate]
  omega

/-- Settles O30: the leading `'0'` characters dropped are the leading zeros of `P ^ N`. -/
theorem renderedLengths : Obligations.RenderedLengths := fun alt width p n =>
  ⟨length_digits_eq_clz64 p n, head?_digits_ne_zero p n, length_renderText alt width p n,
    fun hw => length_renderText_le hw p n⟩

/-! ## Collisions and equal masks -/

theorem positionChar_normalizePair (p n : Word) (k : Nat) :
    positionChar (normalizePair p n).1 (normalizePair p n).2 k = positionChar p n k := by
  rw [positionChar, positionChar, normalizePair_eq, getLsbD_and_not, getLsbD_and_not]
  cases p.getLsbD (63 - k) <;> cases n.getLsbD (63 - k) <;> rfl

theorem renderText_normalizePair (alt : Bool) (width : Nat) (p n : Word) :
    renderText alt width (normalizePair p n).1 (normalizePair p n).2 =
      renderText alt width p n := by
  have hchars : positionChars (normalizePair p n).1 (normalizePair p n).2 = positionChars p n := by
    rw [positionChars_eq_map, positionChars_eq_map, funext (positionChar_normalizePair p n)]
  rw [renderText, renderText, digits, digits, hchars]

/-- Settles O31: NORM changes no character. -/
theorem rendDoesNotShowCollisions : Obligations.RendDoesNotShowCollisions := by
  intro s alt width
  refine ⟨_, _, _, exec_norm s, exec_rend alt width s, exec_rend alt width _, ?_, rfl, rfl⟩
  simp only [renderText_normalizePair]

theorem digits_self (p : Word) : digits p p = [] := by
  have hlen := length_digits_eq_clz64 p p
  have hclear : 64 - clz64 (p ^^^ p) ≤ 0 := clear_above_iff.1 fun i _ => by simp
  exact List.eq_nil_of_length_eq_zero (by omega)

theorem map_code_radixMark (alt : Bool) :
    (radixMark alt).map TextChar.code = if alt then [0x30, 0x74] else [] := by
  cases alt <;> rfl

/-- Settles O33: equal masks leave no digit, so the padding runs up to the width. -/
theorem equalMasksRenderNoDigit : Obligations.EqualMasksRenderNoDigit := by
  intro s alt width hPN _
  have hlen := length_renderText alt width s.N s.N
  have htext : (renderText alt width s.N s.N).map TextChar.code =
      (if alt then [0x30, 0x74] else []) ++ List.replicate (width - 2 * alt.toNat) 0x30 := by
    rw [renderText, digits_self, List.append_nil, List.map_append, map_code_radixMark,
      List.map_replicate, padCount_eq_sub, length_radixMark]
    rfl
  rw [digits_self, List.length_nil, zero_add] at hlen
  rw [exec_rend, hPN, hlen, htext]

/-! ## The number that the digits write -/

theorem foldl_digits_eq (cs : List TextChar) (acc : Int) :
    cs.foldl (fun acc c => 3 * acc + c.digit) acc = acc * 3 ^ cs.length + numeralValue cs := by
  induction cs generalizing acc with
  | nil => simp [numeralValue]
  | cons c cs ih =>
    rw [numeralValue, List.foldl_cons, List.foldl_cons, ih, ih (3 * 0 + c.digit), List.length_cons,
      pow_succ]
    ring

/-- 45_render.md R119 (j): the leftmost digit is the most significant. -/
theorem numeralValue_cons (c : TextChar) (cs : List TextChar) :
    numeralValue (c :: cs) = c.digit * 3 ^ cs.length + numeralValue cs := by
  rw [numeralValue, List.foldl_cons, foldl_digits_eq, mul_zero, zero_add]

theorem numeralValue_zero_cons (cs : List TextChar) :
    numeralValue (.zero :: cs) = numeralValue cs := by
  rw [numeralValue_cons, TextChar.digit, zero_mul, zero_add]

theorem numeralValue_replicate_zero_append (k : Nat) (cs : List TextChar) :
    numeralValue (List.replicate k .zero ++ cs) = numeralValue cs := by
  induction k with
  | zero => rfl
  | succ k ih => rw [List.replicate_succ, List.cons_append, numeralValue_zero_cons, ih]

theorem numeralValue_dropWhile_zero (cs : List TextChar) :
    numeralValue (cs.dropWhile (· == .zero)) = numeralValue cs := by
  induction cs with
  | nil => rfl
  | cons c cs ih =>
    by_cases hc : c = .zero
    · rw [hc, List.dropWhile_cons_of_pos rfl, ih, numeralValue_zero_cons]
    · rw [List.dropWhile_cons_of_neg (by simpa using hc)]

/-- Characters written from position `k - 1` down to 0 are a sum over the positions. -/
theorem numeralValue_reverse_range (f : Nat → TextChar) (k : Nat) :
    numeralValue ((List.range k).reverse.map f) = sumTo (fun i => (f i).digit * 3 ^ i) k := by
  induction k with
  | zero => rfl
  | succ k ih =>
    rw [List.range_succ, List.reverse_append, List.reverse_singleton, List.singleton_append,
      List.map_cons, numeralValue_cons, ih, sumTo_succ]
    simp [add_comm]

theorem positionChars_eq_reverse_range (p n : Word) :
    positionChars p n = (List.range 64).reverse.map fun i => tritChar (p.getLsbD i) (n.getLsbD i) :=
  List.ext_getElem (by simp) fun k _ _ => by simp [positionChar]

/-- 45_render.md R111: a collision counts nothing in the text. -/
theorem digit_tritChar (a b : Bool) : (tritChar a b).digit = contribution .zero a b := by
  cases a <;> cases b <;> rfl

theorem numeralValue_digits (p n : Word) : numeralValue (digits p n) = signedSum .zero p n := by
  rw [digits, numeralValue_dropWhile_zero, positionChars_eq_reverse_range,
    numeralValue_reverse_range]
  exact sumTo_congr fun i _ => by rw [digit_tritChar]

theorem TextChar.digit_bound (c : TextChar) : -1 ≤ c.digit ∧ c.digit ≤ 1 := by
  cases c <;> decide

/-- A numeral of `k` digits stays below half of `3^k`. -/
theorem two_mul_numeralValue_bound (cs : List TextChar) :
    -(3 ^ cs.length - 1) ≤ 2 * numeralValue cs ∧ 2 * numeralValue cs ≤ 3 ^ cs.length - 1 := by
  induction cs with
  | nil => decide
  | cons c cs ih =>
    obtain ⟨hlo, hhi⟩ := c.digit_bound
    have hpos : (0 : Int) < 3 ^ cs.length := by positivity
    rw [numeralValue_cons, List.length_cons, pow_succ]
    constructor <;> nlinarith

/-- A numeral that begins with `+` or `-` is beyond the reach of every shorter one. -/
theorem length_le_of_numeralValue_eq {c : TextChar} {ds cs : List TextChar}
    (hc : c.digit = 1 ∨ c.digit = -1) (h : numeralValue cs = numeralValue (c :: ds)) :
    (c :: ds).length ≤ cs.length := by
  by_contra hlt
  have hpow : (3 : Int) ^ cs.length ≤ 3 ^ ds.length :=
    pow_le_pow_right₀ (by decide) (Nat.lt_succ_iff.1 (not_le.1 hlt))
  obtain ⟨hlo, hhi⟩ := two_mul_numeralValue_bound cs
  obtain ⟨hdlo, hdhi⟩ := two_mul_numeralValue_bound ds
  rw [numeralValue_cons] at h
  obtain hc | hc := hc <;> rw [hc] at h <;> omega

theorem ne_t_of_mem_digits {p n : Word} {c : TextChar} (hc : c ∈ digits p n) : c ≠ .t := by
  have hmem := (List.dropWhile_sublist _).subset hc
  rw [positionChars_eq_reverse_range, List.mem_map] at hmem
  obtain ⟨i, -, rfl⟩ := hmem
  cases p.getLsbD i <;> cases n.getLsbD i <;> decide

/-- Settles O32: the digits write the sum over the positions, and their first is not `'0'`. -/
theorem renderedDigitsAreTheShortestNumeral : Obligations.RenderedDigitsAreTheShortestNumeral := by
  intro p n z hz
  obtain ⟨hnorm, -⟩ := val_eq_some_iff.1 hz
  have hvalue : numeralValue (digits p n) = z := (numeralValue_digits p n).trans
    (Option.some.inj ((val_eq_signedSum .zero hnorm).symm.trans hz))
  refine ⟨fun k => (numeralValue_replicate_zero_append k _).trans hvalue,
    fun c hc => ne_t_of_mem_digits hc, fun cs _ hcs => ?_⟩
  have hhead := head?_digits_ne_zero p n
  have hnot (c : TextChar) (hc : c ∈ digits p n) : c ≠ .t := ne_t_of_mem_digits hc
  cases hdigits : digits p n with
  | nil => exact Nat.zero_le _
  | cons c ds =>
    rw [hdigits] at hhead hnot hvalue
    have hc : c.digit = 1 ∨ c.digit = -1 := by
      have ht := hnot c List.mem_cons_self
      cases c with
      | plus => exact .inl rfl
      | minus => exact .inr rfl
      | zero => exact absurd rfl hhead
      | t => exact absurd rfl ht
    exact length_le_of_numeralValue_eq hc (hcs.trans hvalue.symm)

end Sys2Proof.Machine

/-! Listings (30_encoding.md R47, R48): which command each line presents, and how a line of text is
read. -/

namespace Sys2Proof.Machine

/-! ## Lines -/

theorem expandLine_load (p n : Word) :
    expandLine (.load p.toNat n.toNat) = some [.issue (commandFor .load p n)] := by
  simp only [expandLine, p.isLt, n.isLt, and_self, if_true, BitVec.ofNat_toNat, BitVec.setWidth_eq]

theorem expandLine_rend (alt : Bool) {width : Nat} (hw : width ≤ 127) :
    expandLine (.rend alt width) = some [.issue (commandFor (.rend alt width) 0 0)] :=
  if_pos hw

theorem expandLine_fromu (u : Word) :
    expandLine (.fromu u.toNat) = some [.issue (commandFor .fromu u 0)] := by
  simp only [expandLine, u.isLt, if_true, BitVec.ofNat_toNat, BitVec.setWidth_eq]

theorem expandLine_froms (u : Word) :
    expandLine (.froms u.toInt) = some [.issue (commandFor .froms u 0)] := by
  have hrange : -(2 ^ 63) ≤ u.toInt ∧ u.toInt < 2 ^ 63 := ⟨BitVec.le_toInt u, BitVec.toInt_lt⟩
  simp only [expandLine, hrange, and_self, if_true, BitVec.ofInt_toInt]

/-- Settles O52: in its range a number is the operand word that reads as it; out of range it is
refused. -/
theorem listingLinesPresentTheirCommands : Obligations.ListingLinesPresentTheirCommands := by
  refine ⟨rfl, rfl, rfl, rfl, expandLine_load,
    fun w hw => ⟨expandLine_rend false hw, expandLine_rend true hw⟩, expandLine_fromu,
    expandLine_froms, fun p n h => if_neg ?_, fun u hu => if_neg (not_lt.2 hu),
    fun z hz => if_neg ?_, fun w alt hw => if_neg (not_le.2 hw)⟩
  · omega
  · omega

/-! ## Words and separators -/

theorem flushWord_reverse {word : List Char} (hne : word ≠ []) :
    flushWord (word.reverse ++ []) = [.word word] := by
  simp [flushWord, hne]

/-- A blank ends a word and is dropped. -/
theorem lexLine_word_blank {word : List Char} (hplain : ∀ c ∈ word, IsPlain c) (hne : word ≠ [])
    (rest : List Char) : lexLine (word ++ ' ' :: rest) [] = .word word :: lexLine rest [] := by
  rw [lexLine_append_of_plain hplain, lexLine, flushWord_reverse hne]
  simp

/-- A comma ends a word and is a token of its own. -/
theorem lexLine_word_comma {word : List Char} (hplain : ∀ c ∈ word, IsPlain c) (hne : word ≠ [])
    (rest : List Char) :
    lexLine (word ++ ',' :: rest) [] = .word word :: .comma :: lexLine rest [] := by
  rw [lexLine_append_of_plain hplain, lexLine, flushWord_reverse hne]
  simp

/-- The characters of the ten mnemonics. -/
theorem isPlain_of_isUpper {c : Char} (h : c.isUpper = true) : IsPlain c := by
  refine ⟨?_, ?_, ?_, ?_, ?_⟩ <;> rintro rfl <;> exact absurd h (by decide)

/-- A line of a mnemonic, a blank and one word. -/
theorem lexLine_mnemonic_word {mnemonic word : List Char} (hm : mnemonic.all Char.isUpper = true)
    (hmne : mnemonic ≠ []) (hplain : ∀ c ∈ word, IsPlain c) (hne : word ≠ []) :
    lexLine (mnemonic ++ ' ' :: word) [] = [.word mnemonic, .word word] := by
  rw [lexLine_word_blank (fun c hc => isPlain_of_isUpper (List.all_eq_true.1 hm c hc)) hmne,
    lexLine_of_plain hplain hne]
  rfl

/-! ## Numbers -/

theorem readInt_of_numeral {text : List Char} {k : Nat} (h : IsNumeral text k) :
    readInt text = some (k : Int) := by
  obtain ⟨-, -, hhead⟩ := plain_of_numeral h
  unfold readInt
  split
  · exact absurd rfl hhead
  · rw [readNat_of_numeral h]
    rfl

theorem readInt_minus_numeral {text : List Char} {k : Nat} (h : IsNumeral text k) :
    readInt ('-' :: text) = some (-k : Int) := by
  rw [readInt, readNat_of_numeral h]
  rfl

/-! ## Forms with numbers -/

/-- A line of a mnemonic, a blank and one operand stands for what its two words read as. -/
theorem assembleLine_mnemonic_word {mnemonic word : List Char} {l : AsmLine}
    (hm : mnemonic.all Char.isUpper = true) (hmne : mnemonic ≠ []) (hplain : ∀ c ∈ word, IsPlain c)
    (hne : word ≠ []) (hl : readTokens [.word mnemonic, .word word] = some l) :
    assembleLine (mnemonic ++ ' ' :: word) = expandLine l :=
  assembleLine_of_tokens (lexLine_mnemonic_word hm hmne hplain hne) (List.cons_ne_nil _ _) hl

section
variable {text : List Char} {k : Nat}

theorem assembleLine_rend (h : IsNumeral text k) :
    assembleLine ("REND ".toList ++ text) = expandLine (.rend false k) := by
  obtain ⟨hplain, hne, -⟩ := plain_of_numeral h
  exact assembleLine_mnemonic_word (mnemonic := "REND".toList) (by decide) (by decide) hplain hne
    (congrArg (Option.map (AsmLine.rend false)) (readNat_of_numeral h))

theorem assembleLine_fromu (h : IsNumeral text k) :
    assembleLine ("FROMU ".toList ++ text) = expandLine (.fromu k) := by
  obtain ⟨hplain, hne, -⟩ := plain_of_numeral h
  exact assembleLine_mnemonic_word (mnemonic := "FROMU".toList) (by decide) (by decide) hplain hne
    (congrArg (Option.map AsmLine.fromu) (readNat_of_numeral h))

theorem assembleLine_froms (h : IsNumeral text k) :
    assembleLine ("FROMS ".toList ++ text) = expandLine (.froms k) := by
  obtain ⟨hplain, hne, -⟩ := plain_of_numeral h
  exact assembleLine_mnemonic_word (mnemonic := "FROMS".toList) (by decide) (by decide) hplain hne
    (congrArg (Option.map AsmLine.froms) (readInt_of_numeral h))

theorem assembleLine_froms_minus (h : IsNumeral text k) :
    assembleLine ("FROMS -".toList ++ text) = expandLine (.froms (-k)) := by
  obtain ⟨hplain, -, -⟩ := plain_of_numeral h
  have hminus : ∀ c ∈ '-' :: text, IsPlain c :=
    List.forall_mem_cons.2 ⟨⟨by decide, by decide, by decide, by decide, by decide⟩, hplain⟩
  exact assembleLine_mnemonic_word (mnemonic := "FROMS".toList) (by decide) (by decide) hminus
    (List.cons_ne_nil _ _) (congrArg (Option.map AsmLine.froms) (readInt_minus_numeral h))

theorem assembleLine_rend_mark (h : IsNumeral text k) :
    assembleLine ("REND #, ".toList ++ text) = expandLine (.rend true k) := by
  obtain ⟨hplain, hne, -⟩ := plain_of_numeral h
  have htokens : lexLine ("REND #, ".toList ++ text) [] =
      .word "REND".toList :: .hash :: .comma :: lexLine text [] := rfl
  rw [lexLine_of_plain hplain hne] at htokens
  exact assembleLine_of_tokens htokens (List.cons_ne_nil _ _)
    (congrArg (Option.map (AsmLine.rend true)) (readNat_of_numeral h))

theorem readTokens_load {p n : List Char} {a b : Nat} (hp : readNat p = some a)
    (hn : readNat n = some b) :
    readTokens [.word "LOAD".toList, .word p, .comma, .word n] = some (.load a b) := by
  have hread : readTokens [.word "LOAD".toList, .word p, .comma, .word n] =
      match readNat p, readNat n with
      | some a, some b => some (.load a b)
      | _, _ => none := rfl
  rw [hread, hp, hn]

theorem assembleLine_load {text' : List Char} {k' : Nat} (h : IsNumeral text k)
    (h' : IsNumeral text' k') :
    assembleLine ("LOAD ".toList ++ text ++ ", ".toList ++ text') = expandLine (.load k k') := by
  obtain ⟨hplain, hne, -⟩ := plain_of_numeral h
  obtain ⟨hplain', hne', -⟩ := plain_of_numeral h'
  have htokens : lexLine ("LOAD ".toList ++ text ++ ", ".toList ++ text') [] =
      .word "LOAD".toList :: lexLine (text ++ ',' :: ' ' :: text') [] := by
    rw [List.append_assoc, List.append_assoc]
    rfl
  have hsecond : lexLine (' ' :: text') [] = [.word text'] := lexLine_of_plain hplain' hne' []
  rw [lexLine_word_comma hplain hne, hsecond] at htokens
  exact assembleLine_of_tokens htokens (List.cons_ne_nil _ _)
    (readTokens_load (readNat_of_numeral h) (readNat_of_numeral h'))

end

/-! ## Comments and refusals -/

/-- A `;` ends the line. -/
theorem lexLine_append_comment (text note acc : List Char) :
    lexLine (text ++ ';' :: note) acc = lexLine text acc := by
  induction text generalizing acc with
  | nil => rfl
  | cons c text ih => simp only [List.cons_append, lexLine, ih]

/-- 30_encoding.md R47, R48: the first words that a line can have. -/
def mnemonics : List (List Char) :=
  ["NOP".toList, "LOAD".toList, "NORM".toList, "NEG".toList, "TOINT".toList, "REND".toList,
    "FROMU".toList, "FROMS".toList, "CLR".toList, "NEGM".toList]

theorem readTokens_eq_none {word : List Char} (h : word ∉ mnemonics) (tokens : List Token) :
    readTokens (.word word :: tokens) = none := by
  generalize hline : Token.word word :: tokens = line
  unfold readTokens
  split
  case h_14 => rfl
  all_goals
    cases hline
    exact absurd (by decide) h

/-- Settles O53: every line of the table splits into the tokens that its form reads. -/
theorem listingTextIsReadAsItsLine : Obligations.ListingTextIsReadAsItsLine := by
  refine ⟨rfl, rfl, rfl, rfl, rfl, rfl, rfl, rfl,
    fun text k h => ⟨assembleLine_rend h, assembleLine_rend_mark h, assembleLine_fromu h,
      assembleLine_froms h, assembleLine_froms_minus h, fun text' k' h' => assembleLine_load h h'⟩,
    fun text note => ?_, fun text word tokens hlex hword => ?_⟩
  · rw [assembleLine, lexLine_append_comment, assembleLine]
  · rw [assembleLine, hlex]
    exact congrArg (·.bind expandLine) (readTokens_eq_none hword tokens)

end Sys2Proof.Machine
